-- ==== Sys2Proof/Word.lean ====
section
/-! DEFINITION. The words of the block and the data its operations carry: widths (00_scope.md R3 to R6, section 5),
device identifiers and Page Access Descriptors (10_state.md R21 to R23), stream items (30_encoding.md R91), and the two
calls an external device answers (60_exceptions.md R183). Only what the spec numbers as bits is a bit vector; counts,
backing-store offsets and bank indexes are natural numbers. -/

namespace Sys2Proof

/-- A data value: 8 bits (R3). -/
abbrev Byte := BitVec 8

/-- An address, page-index or bank-index operand as a transaction word carries it: 16 bits (R80). -/
abbrev Arg := BitVec 16

/-- A bus address: 13 bits, 0x0000 .. 0x1FFF (R4, decision D1). -/
abbrev BusAddr := BitVec 13

/-- A page index: 7 bits, 0 .. 127 (R6). -/
abbrev PageIdx := BitVec 7

/-- A captured-slot index: 5 bits, 0 .. 31 (R32, R89). -/
abbrev Slot := BitVec 5

/-- A transaction word (R80). -/
abbrev TxWord := BitVec 32

/-- The two cartridge variants in scope (R2). -/
inductive Variant where
  | fixed
  | multi
deriving DecidableEq, Repr, Inhabited

/-- A device identifier: the one cartridge, or an external device by its number (R23). -/
inductive DeviceId where
  | cart
  | ext (k : Nat)
deriving DecidableEq, Repr, Inhabited

/-- The capability a descriptor records; the bus never tests it (R21, R69). -/
inductive Cap where
  | ro
  | rw
deriving DecidableEq, Repr, Inhabited

/-- A Page Access Descriptor (R21): `direct` is the backing-store offset of the byte at the page's first address,
`aux` the code/data classification offset. -/
structure Desc where
  owner  : DeviceId
  cap    : Cap
  direct : Option Nat
  aux    : Option Nat
deriving DecidableEq, Repr, Inhabited

/-- A page-table entry: `Unmapped` or one descriptor (R20, R22). -/
inductive PageEntry where
  | unmapped
  | mapped (d : Desc)
deriving DecidableEq, Repr, Inhabited

/-- One item of a persistence stream (R91). -/
inductive StreamItem where
  | str (t : String)
  | short (n : BitVec 16)
deriving DecidableEq, Repr

/-- What a stream does with one get to come, when the first unread item is of the kind asked for (R150, U4). -/
inductive GetTurn where
  /-- The item is removed and returned. -/
  | serves
  /-- The get signals StreamError; the stream says whether the item is gone (log entry 11). -/
  | signals (itemRemoved : Bool)
deriving DecidableEq, Repr

/-- A persistence stream as its caller supplies it (R150, U4): the unread items, first one first, what the stream does with
the puts to come (`true`: that put signals StreamError) and with the gets to come. Past the end of `putFails` every put
succeeds, past the end of `gets` every get serves; in the reference stream both are empty. -/
structure Stream where
  items    : List StreamItem
  putFails : List Bool
  gets     : List GetTurn
deriving DecidableEq, Repr

/-- One call of an external device's interface (R183), with the 13-bit bus address. -/
inductive DevAccess where
  | peek (a : BusAddr)
  | poke (a : BusAddr) (v : Byte)
deriving DecidableEq, Repr

/-- A call made to external device `EXT(dev)`. -/
structure DevCall where
  dev    : Nat
  access : DevAccess
deriving DecidableEq, Repr

end Sys2Proof
end

