-- ==== Sys2Proof/Config.lean ====
section
/-! DEFINITION. The implementation parameters of 00_scope.md section 3 and the free values: what the spec leaves to the
platform is an opaque constant without a body, so that no claim can depend on its value. -/

namespace Sys2Proof

/-- `BANK_SIZE` (R9). -/
@[simp] def Config.bankSize : Nat := 4096

/-- `BANK_MASK` (R9). -/
@[simp] def Config.bankMask : Nat := 0x0FFF

/-- `PAGE_SIZE` (R5). -/
@[simp] def Config.pageSize : Nat := 64

/-- `FIXED_MAX` (R10). -/
@[simp] def Config.fixedMax : Nat := 2048

/-- `FIXED_MIN` (R10). -/
@[simp] def Config.fixedMin : Nat := 64

/-- `FILL`, the jam sentinel byte (R10). It is also what an unlisted backing-store offset reads as (log entry 4). -/
def Config.fill : Byte := 0x02

/-- The largest `bankCount` (R11, decision D19). -/
@[simp] def Config.maxBanks : Nat := 65536

/-- `TAG_FIXED`: an open parameter (R14, decision D13; log entry 8). -/
opaque Config.tagFixed : String

/-- The free string from which `TAG_MULTI` is made (log entry 8). -/
opaque Config.tagMultiSource : String

/-- `TAG_MULTI`: any string but `TAG_FIXED` (R14's one constraint). Every pair of distinct strings is a value of the pair
(`tagFixed`, `tagMulti`): take `tagMultiSource` to be the second. -/
def Config.tagMulti : String :=
  if Config.tagMultiSource = Config.tagFixed then Config.tagMultiSource ++ "'" else Config.tagMultiSource

/-- The tag of a variant (R25). -/
def Config.tagOf : Variant → String
  | .fixed => Config.tagFixed
  | .multi => Config.tagMulti

/-- FREE VALUE: the byte external device `k` answers to a peek of `a`, given every call it has had before, oldest first.
A device's private state changes only by its own peeks and pokes (R35, R183), so its answer is some function of those
calls, and nothing else is known of it (decision D23; log entry 5). -/
opaque Config.extPeek (k : Nat) (history : List DevAccess) (a : BusAddr) : Byte

/-- FREE VALUE: the success bit external device `k` answers to a poke (R183, D23; log entry 5). -/
opaque Config.extPoke (k : Nat) (history : List DevAccess) (a : BusAddr) (v : Byte) : Bool

/-- FREE VALUE: what `captured[h]` holds after the `n`-th construction, until M.INSTALL ("unspecified", R32, S4; log
entry 6). -/
opaque Config.capturedAtConstruct (n : Nat) (h : Nat) : Desc

end Sys2Proof
end

