-- ==== Sys2Proof/Machine/Operands.lean ====
section
/-! DEFINITION. Operand forms: every field the spec reads from an address or a page index (20_memory.md sections 3 and 4,
30_encoding.md section 2), each written once. -/

namespace Sys2Proof.Machine

/-- `a16 & 0x1FFF`: the 13 significant bits of an address operand (R4, R56). -/
def busAddr (a : Arg) : BusAddr := a.setWidth 13

/-- The page index `a[12:6] = a >> 6` (R83). -/
def pageOf (a : BusAddr) : PageIdx := a.extractLsb' 6 7

/-- Window select: `a[12] = 1` (R7, R84). -/
def inWindow (a : BusAddr) : Bool := a.getLsbD 12

/-- Hotspot region select: `(a & 0x1800) == 0x0800` (R8, R85). -/
def inHotspot (a : BusAddr) : Bool := (a &&& 0x1800#13) == 0x0800#13

/-- The captured-slot field `h = (a >> 6) & 0x1F` (R89). -/
def slotOf (a : BusAddr) : Slot := a.extractLsb' 6 5

/-- Pages 64 .. 127 are the window (R7). -/
def isWindowPage (p : PageIdx) : Bool := decide (64 ≤ p.toNat)

/-- Pages 32 .. 63 are the hotspot region (R8). -/
def isHotspotPage (p : PageIdx) : Bool := decide (32 ≤ p.toNat ∧ p.toNat < 64)

/-- Page `32 + h`, the page captured slot `h` copies (R32). -/
def hotspotPage (h : Slot) : PageIdx := 32 + h.setWidth 7

/-- The page index a 16-bit operand names, when it is at most 127 (R53). -/
def pageArg? (p : Arg) : Option PageIdx := if p.toNat ≤ 127 then some (p.setWidth 7) else none

/-- The first bus address of page `p`: `p * 64` (R20). -/
def pageBase (p : PageIdx) : Nat := p.toNat * Config.pageSize

/-- Fixed store offset: `a & mask`, `mask = storeSize - 1` (R57, R88). -/
def fixedOffset (storeSize a : Nat) : Nat := a &&& (storeSize - 1)

/-- Multi store offset: `bank * 4096 + (a & 0x0FFF)` (R58, R87). -/
def bankOffset (bank a : Nat) : Nat := bank * Config.bankSize + (a &&& Config.bankMask)

/-- The hotspot bank-select function `HotBank(a) = a & (bankCount - 1)` (R86, R134). -/
def hotBank (bankCount : Nat) (a : BusAddr) : Nat := a.toNat &&& (bankCount - 1)

/-- `nextPow2` from the power `p` upwards, `fuel` doublings at most. -/
def nextPow2From : Nat → Nat → Nat → Nat
  | 0, p, _ => p
  | fuel + 1, p, n => if n ≤ p then p else nextPow2From fuel (2 * p) n

/-- The least power of two that is `>= n`, with `nextPow2 0 = 1` (00_scope.md section 5). -/
def nextPow2 (n : Nat) : Nat := nextPow2From n 1 n

/-- `min(requestedSize, 2048)`: how many image bytes a Fixed cartridge takes (R110). -/
def fixedCopied (requestedSize : Nat) : Nat := min requestedSize Config.fixedMax

/-- `storeSize = max(64, nextPow2(min(requestedSize, 2048)))` (R27, R110). -/
def fixedStoreSize (requestedSize : Nat) : Nat := max Config.fixedMin (nextPow2 (fixedCopied requestedSize))

/-- What makes an image one M.CONSTRUCT accepts: a positive multiple of 4096 bytes, at most 65536 banks (R130). -/
def goodMultiImageSize (imageSize : Nat) : Bool :=
  decide (imageSize ≠ 0 ∧ imageSize % Config.bankSize = 0 ∧ imageSize / Config.bankSize ≤ Config.maxBanks)

end Sys2Proof.Machine
end

