-- ==== Sys2Proof/Syntax.lean ====
section
/-! DEFINITION. The operations of the block: one constructor per row of spec/opcode_table.json (30_encoding.md R81), and
the transaction that carries one (R80). -/

namespace Sys2Proof

/-- One operation with its operands. Addresses, page indexes and bank indexes are the 16-bit operands "as carried"; each
rule reduces them itself. M.PEEK and M.POKE have one constructor per address region, as the table has three rows. -/
inductive Instr where
  /-- `READ a16` (R100). -/
  | read (a : Arg)
  /-- `WRITE a16, v` (R101). -/
  | write (a : Arg) (v : Byte)
  /-- `GETPAGE p` (R102). -/
  | getpage (p : Arg)
  /-- `SETPAGE p, d` (R103). -/
  | setpage (p : Arg) (d : Desc)
  /-- `F.CONSTRUCT image, requestedSize` (R110). -/
  | fConstruct (image : List Byte) (requestedSize : Nat)
  /-- `M.CONSTRUCT image` (R130). -/
  | mConstruct (image : List Byte)
  /-- `F.INSTALL` (R113). -/
  | fInstall
  /-- `M.INSTALL` (R137). -/
  | mInstall
  /-- `F.RESET` (R116). -/
  | fReset
  /-- `M.RESET` (R140). -/
  | mReset
  /-- `F.PEEK a` (R112). -/
  | fPeek (a : Arg)
  /-- `M.PEEK a16` with a hotspot address (R135). -/
  | mPeekHotspot (a : Arg)
  /-- `M.PEEK a16` with a window address (R135). -/
  | mPeekWindow (a : Arg)
  /-- `M.PEEK a16` with an address in 0x0000 .. 0x07FF (R135). -/
  | mPeekLow (a : Arg)
  /-- `F.POKE a, v` (R114). -/
  | fPoke (a : Arg) (v : Byte)
  /-- `M.POKE a16, v` with a hotspot address (R136). -/
  | mPokeHotspot (a : Arg) (v : Byte)
  /-- `M.POKE a16, v` with a window address (R136). -/
  | mPokeWindow (a : Arg) (v : Byte)
  /-- `M.POKE a16, v` with an address in 0x0000 .. 0x07FF (R136). -/
  | mPokeLow (a : Arg) (v : Byte)
  /-- `F.PATCH a, v` (R115). -/
  | fPatch (a : Arg) (v : Byte)
  /-- `M.PATCH a, v` (R139). -/
  | mPatch (a : Arg) (v : Byte)
  /-- `F.BANK b` (R117). -/
  | fBank (b : Arg)
  /-- `M.BANK b` (R138). -/
  | mBank (b : Arg)
  /-- `F.GETBANK` (R118). -/
  | fGetbank
  /-- `M.GETBANK` (R141). -/
  | mGetbank
  /-- `F.BANKCOUNT` (R119). -/
  | fBankcount
  /-- `M.BANKCOUNT` (R142). -/
  | mBankcount
  /-- `F.GETIMAGE` (R120). -/
  | fGetimage
  /-- `M.GETIMAGE` (R143). -/
  | mGetimage
  /-- `F.TAG` (R121). -/
  | fTag
  /-- `M.TAG` (R144). -/
  | mTag
  /-- `F.SAVE s` (R153). -/
  | fSave (s : Stream)
  /-- `M.SAVE s` (R155). -/
  | mSave (s : Stream)
  /-- `F.LOAD s` (R154). -/
  | fLoad (s : Stream)
  /-- `M.LOAD s` (R156). -/
  | mLoad (s : Stream)
  /-- `LOCKBANK` (R160). -/
  | lockbank
  /-- `UNLOCKBANK` (R161). -/
  | unlockbank
  /-- `BANKCHANGED` (R162). -/
  | bankchanged
  /-- `CLEARBANKCHANGED` (R163). -/
  | clearbankchanged
deriving DecidableEq, Repr

/-- The operands that do not fit in the word and travel beside it (R80, R81): the image and size of CONSTRUCT and the
VARIANT it fixes (R2; log entry 2), the descriptor of SETPAGE, the stream of SAVE and LOAD. An operation ignores the ones
its rule does not name. -/
structure Beside where
  variant       : Variant
  image         : List Byte
  requestedSize : Nat
  desc          : Desc
  stream        : Stream
deriving DecidableEq, Repr

/-- One operation as an initiator issues it: the word and what travels beside it (R80). -/
structure Transaction where
  word   : TxWord
  beside : Beside
deriving DecidableEq, Repr

/-- Nothing beside the word: no image bytes, size 0, no stream items, and the descriptor of the spec's own examples
(R97: `<EXT(0),RW,None,None>`). -/
def Beside.empty : Beside :=
  { variant := .multi, image := [], requestedSize := 0,
    desc := { owner := .ext 0, cap := .rw, direct := none, aux := none },
    stream := { items := [], putFails := [], gets := [] } }

end Sys2Proof
end

