-- ==== Sys2Proof/WellFormed.lean ====
section
/-! DEFINITION. Which instructions the encoding admits, and in which variant an operation exists (30_encoding.md R81, R92).
The only constraint on operands is that the three rows of M.PEEK and of M.POKE are split by the region of the address. -/

namespace Sys2Proof

open Machine in
/-- The operand constraints of spec/opcode_table.json: the address bits 12 and 11 of the M.PEEK and M.POKE rows (R81). -/
def Instr.wf : Instr → Bool
  | .mPeekHotspot a => inHotspot (busAddr a)
  | .mPeekWindow a => inWindow (busAddr a)
  | .mPeekLow a => !inHotspot (busAddr a) && !inWindow (busAddr a)
  | .mPokeHotspot a _ => inHotspot (busAddr a)
  | .mPokeWindow a _ => inWindow (busAddr a)
  | .mPokeLow a _ => !inHotspot (busAddr a) && !inWindow (busAddr a)
  | .read _ | .write _ _ | .getpage _ | .setpage _ _ | .fConstruct _ _ | .mConstruct _ | .fInstall | .mInstall
  | .fReset | .mReset | .fPeek _ | .fPoke _ _ | .fPatch _ _ | .mPatch _ _ | .fBank _ | .mBank _ | .fGetbank
  | .mGetbank | .fBankcount | .mBankcount | .fGetimage | .mGetimage | .fTag | .mTag | .fSave _ | .mSave _
  | .fLoad _ | .mLoad _ | .lockbank | .unlockbank | .bankchanged | .clearbankchanged => true

/-- The `variant` column of the table: does a system of variant `v` have this operation? CONSTRUCT is the operation that
fixes the variant, so both of its rows exist in every system (R2; log entry 2). -/
def Instr.existsIn (v : Variant) : Instr → Bool
  | .read _ | .write _ _ | .getpage _ | .setpage _ _ | .fConstruct _ _ | .mConstruct _
  | .bankchanged | .clearbankchanged => true
  | .fInstall | .fReset | .fPeek _ | .fPoke _ _ | .fPatch _ _ | .fBank _ | .fGetbank | .fBankcount | .fGetimage
  | .fTag | .fSave _ | .fLoad _ => v == .fixed
  | .mInstall | .mReset | .mPeekHotspot _ | .mPeekWindow _ | .mPeekLow _ | .mPokeHotspot _ _ | .mPokeWindow _ _
  | .mPokeLow _ _ | .mPatch _ _ | .mBank _ | .mGetbank | .mBankcount | .mGetimage | .mTag | .mSave _ | .mLoad _
  | .lockbank | .unlockbank => v == .multi

end Sys2Proof
end

