-- ==== Sys2Proof/Decode.lean ====
section
/-! DEFINITION. Decoding a transaction (30_encoding.md R80, R81, R92 to R94) and, after it, encoding an operation. A decoder
takes the system's VARIANT and the transaction; every word decodes or is rejected by name. -/

namespace Sys2Proof

/-- `sel = W[31:24]` (R80). -/
def selOf (w : TxWord) : BitVec 8 := w.extractLsb' 24 8

/-- `arg = W[23:8]` (R80). -/
def argOf (w : TxWord) : Arg := w.extractLsb' 8 16

/-- `data = W[7:0]` (R80). -/
def dataOf (w : TxWord) : Byte := w.extractLsb' 0 8

/-- Why a transaction spells no operation (R92). -/
inductive Reject where
  /-- The selector is in no row of R81's table. -/
  | unassignedSelector (sel : BitVec 8)
  /-- LOCKBANK or UNLOCKBANK given to a Fixed cartridge. -/
  | notInFixedVariant (sel : BitVec 8)
deriving DecidableEq, Repr

/-- What the decoder makes of a transaction. -/
inductive Decoded where
  | instr (i : Instr)
  | rejected (r : Reject)
deriving DecidableEq, Repr

/-- M.PEEK by the region of its address (R81: the three rows). -/
def decodeMPeek (a : Arg) : Instr :=
  if Machine.inHotspot (Machine.busAddr a) then .mPeekHotspot a
  else if Machine.inWindow (Machine.busAddr a) then .mPeekWindow a
  else .mPeekLow a

/-- M.POKE by the region of its address (R81: the three rows). -/
def decodeMPoke (a : Arg) (v : Byte) : Instr :=
  if Machine.inHotspot (Machine.busAddr a) then .mPokeHotspot a v
  else if Machine.inWindow (Machine.busAddr a) then .mPokeWindow a v
  else .mPokeLow a v

/-- The reading the variant chooses for one selector (R81, R94). -/
def byVariant (v : Variant) (fixed multi : Instr) : Decoded :=
  match v with
  | .fixed => .instr fixed
  | .multi => .instr multi

/-- An operation only the Multi variant has (R92). -/
def multiOnly (v : Variant) (sel : BitVec 8) (i : Instr) : Decoded :=
  match v with
  | .fixed => .rejected (.notInFixedVariant sel)
  | .multi => .instr i

/-- The decoder (R80, R81). `v` is the VARIANT of the system; for CONSTRUCT, which fixes the VARIANT, it travels beside the
word (log entry 2). -/
def decode (v : Variant) (t : Transaction) : Decoded :=
  match selOf t.word with
  | 0x00#8 => .instr (.read (argOf t.word))
  | 0x01#8 => .instr (.write (argOf t.word) (dataOf t.word))
  | 0x02#8 => .instr (.getpage (argOf t.word))
  | 0x03#8 => .instr (.setpage (argOf t.word) t.beside.desc)
  | 0x0F#8 => byVariant t.beside.variant (.fConstruct t.beside.image t.beside.requestedSize) (.mConstruct t.beside.image)
  | 0x10#8 => byVariant v .fInstall .mInstall
  | 0x11#8 => byVariant v .fReset .mReset
  | 0x12#8 => byVariant v (.fPeek (argOf t.word)) (decodeMPeek (argOf t.word))
  | 0x13#8 => byVariant v (.fPoke (argOf t.word) (dataOf t.word)) (decodeMPoke (argOf t.word) (dataOf t.word))
  | 0x14#8 => byVariant v (.fPatch (argOf t.word) (dataOf t.word)) (.mPatch (argOf t.word) (dataOf t.word))
  | 0x15#8 => byVariant v (.fBank (argOf t.word)) (.mBank (argOf t.word))
  | 0x16#8 => byVariant v .fGetbank .mGetbank
  | 0x17#8 => byVariant v .fBankcount .mBankcount
  | 0x18#8 => byVariant v .fGetimage .mGetimage
  | 0x19#8 => byVariant v .fTag .mTag
  | 0x1A#8 => byVariant v (.fSave t.beside.stream) (.mSave t.beside.stream)
  | 0x1B#8 => byVariant v (.fLoad t.beside.stream) (.mLoad t.beside.stream)
  | 0x20#8 => multiOnly v 0x20#8 .lockbank
  | 0x21#8 => multiOnly v 0x21#8 .unlockbank
  | 0x22#8 => .instr .bankchanged
  | 0x23#8 => .instr .clearbankchanged
  | sel => .rejected (.unassignedSelector sel)

/-- `W = {sel, arg, data}` (R80). -/
def mkWord (sel : BitVec 8) (arg : Arg) (data : Byte) : TxWord := sel ++ arg ++ data

/-- The selector of each operation (R81). -/
def Instr.sel : Instr → BitVec 8
  | .read _ => 0x00#8
  | .write _ _ => 0x01#8
  | .getpage _ => 0x02#8
  | .setpage _ _ => 0x03#8
  | .fConstruct _ _ | .mConstruct _ => 0x0F#8
  | .fInstall | .mInstall => 0x10#8
  | .fReset | .mReset => 0x11#8
  | .fPeek _ | .mPeekHotspot _ | .mPeekWindow _ | .mPeekLow _ => 0x12#8
  | .fPoke _ _ | .mPokeHotspot _ _ | .mPokeWindow _ _ | .mPokeLow _ _ => 0x13#8
  | .fPatch _ _ | .mPatch _ _ => 0x14#8
  | .fBank _ | .mBank _ => 0x15#8
  | .fGetbank | .mGetbank => 0x16#8
  | .fBankcount | .mBankcount => 0x17#8
  | .fGetimage | .mGetimage => 0x18#8
  | .fTag | .mTag => 0x19#8
  | .fSave _ | .mSave _ => 0x1A#8
  | .fLoad _ | .mLoad _ => 0x1B#8
  | .lockbank => 0x20#8
  | .unlockbank => 0x21#8
  | .bankchanged => 0x22#8
  | .clearbankchanged => 0x23#8

/-- The 16-bit operand field; 0 when the operation has none (R80). -/
def Instr.arg : Instr → Arg
  | .read a | .write a _ | .fPeek a | .mPeekHotspot a | .mPeekWindow a | .mPeekLow a | .fPoke a _ | .mPokeHotspot a _
  | .mPokeWindow a _ | .mPokeLow a _ | .fPatch a _ | .mPatch a _ => a
  | .getpage p | .setpage p _ => p
  | .fBank b | .mBank b => b
  | .fConstruct _ _ | .mConstruct _ | .fInstall | .mInstall | .fReset | .mReset | .fGetbank | .mGetbank | .fBankcount
  | .mBankcount | .fGetimage | .mGetimage | .fTag | .mTag | .fSave _ | .mSave _ | .fLoad _ | .mLoad _ | .lockbank
  | .unlockbank | .bankchanged | .clearbankchanged => 0

/-- The 8-bit data field; 0 when the operation has none (R80). -/
def Instr.data : Instr → Byte
  | .write _ v | .fPoke _ v | .mPokeHotspot _ v | .mPokeWindow _ v | .mPokeLow _ v | .fPatch _ v | .mPatch _ v => v
  | .read _ | .getpage _ | .setpage _ _ | .fConstruct _ _ | .mConstruct _ | .fInstall | .mInstall | .fReset | .mReset
  | .fPeek _ | .mPeekHotspot _ | .mPeekWindow _ | .mPeekLow _ | .fBank _ | .mBank _ | .fGetbank | .mGetbank
  | .fBankcount | .mBankcount | .fGetimage | .mGetimage | .fTag | .mTag | .fSave _ | .mSave _ | .fLoad _ | .mLoad _
  | .lockbank | .unlockbank | .bankchanged | .clearbankchanged => 0

/-- What travels beside the word (R81). -/
def Instr.beside : Instr → Beside
  | .setpage _ d => { Beside.empty with desc := d }
  | .fConstruct image n => { Beside.empty with variant := .fixed, image := image, requestedSize := n }
  | .mConstruct image => { Beside.empty with variant := .multi, image := image }
  | .fSave s | .mSave s | .fLoad s | .mLoad s => { Beside.empty with stream := s }
  | .read _ | .write _ _ | .getpage _ | .fInstall | .mInstall | .fReset | .mReset | .fPeek _ | .mPeekHotspot _
  | .mPeekWindow _ | .mPeekLow _ | .fPoke _ _ | .mPokeHotspot _ _ | .mPokeWindow _ _ | .mPokeLow _ _ | .fPatch _ _
  | .mPatch _ _ | .fBank _ | .mBank _ | .fGetbank | .mGetbank | .fBankcount | .mBankcount | .fGetimage | .mGetimage
  | .fTag | .mTag | .lockbank | .unlockbank | .bankchanged | .clearbankchanged => Beside.empty

/-- The encoder: the canonical transaction of an operation, ignored fields 0 (R80, R93). -/
def encode (i : Instr) : Transaction := { word := mkWord i.sel i.arg i.data, beside := i.beside }

/-- The transaction a bare word stands for: its low `nbits` bits, and nothing beside it. -/
def bareTransaction (nbits w : Nat) : Transaction := { word := BitVec.ofNat 32 (w % 2 ^ nbits), beside := Beside.empty }

/-- What the decoder reads from a bare word in a system of the reset state's variant, Multi (log entries 2 and 3: a Fixed
and a Multi row of one selector are the same word, so one of the two readings must be chosen). -/
def decodeTableWord (nbits w : Nat) : Option Instr :=
  match decode .multi (bareTransaction nbits w) with
  | .instr i => some i
  | .rejected _ => none

end Sys2Proof
end

