-- ==== Sys2Proof/Machine/State.lean ====
section
/-! DEFINITION. The state of the block as plain data (10_state.md), what an operation hands back, the reasons a step can
stop, and the state right after power-on. -/

namespace Sys2Proof.Machine

/-- The machine's faults. The hardware raises none (R170, R174); the one below is a stuck state. -/
inductive Fault where
  /-- Raised by a hotspot access whose captured slot names the cartridge itself: the forward calls the cartridge's own
  peek or poke at the same hotspot address, which forwards again, without end (R198). M.INSTALL's SelfCapture check keeps
  every reachable state out of it (R145, R137). Safe: the machine stops where the spec's rules never return. -/
  | endlessForward
deriving DecidableEq, Repr

/-- The model's refusals (R176): the source gives the operation no meaning there. All are safe: they make claims unprovable
and let none through. -/
inductive Refusal where
  /-- An instruction without a meaning yet; raised only by an arm of `exec`. Safe. -/
  | notModelled (mnemonic : String)
  /-- READ or WRITE of a page whose entry is Unmapped (R100, R101, R175). Safe. -/
  | unmappedPage
  /-- GETPAGE or SETPAGE with an index above 127 (R102, R103). Safe. -/
  | pageIndexRange
  /-- An unassigned selector, LOCKBANK or UNLOCKBANK on a Fixed cartridge (R92), and an operation of one variant given to
  `exec` in a system of the other (R94; the decoder never does that). Safe. -/
  | noSuchOperation
  /-- CONSTRUCT with an image it cannot take (R110, R130). Safe. -/
  | badImage
  /-- A second INSTALL (R113, R137, R198). Safe. -/
  | doubleInstall
  /-- M.INSTALL finding a hotspot page Unmapped (R137). Safe. -/
  | hotspotUnmapped
  /-- M.INSTALL finding a hotspot page owned by the cartridge (R137, R198). Safe. -/
  | selfCapture
  /-- M.BANK, M.RESET, M.LOAD or a hotspot M.PEEK / M.POKE before M.INSTALL (R135, R136, R138, R140, R156). Safe. -/
  | notInstalled
  /-- An external device issued an operation of the block during its own peek or poke (R183, R203). Safe. -/
  | deviceReentered
deriving DecidableEq, Repr

/-- A backing store's bytes: offset and byte pairs in canonical form (`Memory.wf`); an unlisted offset reads as
`Config.fill` (log entry 4). -/
abbrev Memory := List Host.Cell

/-- `store`: an owned, contiguous buffer of `size` bytes (R26). -/
structure Store where
  size  : Nat
  cells : Memory
deriving DecidableEq, Repr

/-- The Addressable Page Table `PT[0] .. PT[127]` (R20). -/
abbrev PageTable := Vector PageEntry 128

/-- The state only a Multi cartridge has (R28 to R30, R32): `bankCount`, `bank`, `bankLocked`, `captured[0] .. captured[31]`. -/
structure Banks where
  bankCount  : Nat
  bank       : Nat
  bankLocked : Bool
  captured   : Vector Desc 32
deriving DecidableEq, Repr

/-- The cartridge's variant with the state of that variant: a Fixed cartridge has no bank state (R40). -/
inductive Cart where
  | fixed
  | multi (b : Banks)
deriving DecidableEq, Repr

/-- One line of the diagnostic sink. Its text is unspecified; the line records which operation appended it (R34, S16). -/
inductive DiagLine where
  | save
  | load
deriving DecidableEq, Repr

/-- What an operation hands back to its initiator, beside the word (R80, R81). -/
inductive Reply where
  /-- The operation has no result, or none has run yet. -/
  | none
  /-- READ, PEEK. -/
  | byte (v : Byte)
  /-- WRITE, POKE, PATCH, BANK, BANKCHANGED. -/
  | bool (b : Bool)
  /-- GETPAGE. -/
  | entry (e : PageEntry)
  /-- GETBANK, BANKCOUNT. -/
  | number (n : Nat)
  /-- GETIMAGE: the store and its size. -/
  | image (store : Store) (size : Nat)
  /-- TAG. -/
  | text (t : String)
  /-- SAVE, LOAD: success, and the caller's stream as the operation left it. -/
  | streamed (ok : Bool) (after : Stream)
deriving DecidableEq, Repr

/-- The state. `pt` to `diag` are the block's own (10_state.md); `calls` stands for the external devices' private states
(R35); `reply`, `pending`, `reentries` and `constructs` are the model's own fields. -/
structure State where
  /-- `PT` (R20). -/
  pt : PageTable
  /-- `variant`, and for Multi `bankCount`, `bank`, `bankLocked`, `captured` (R24, R28 to R30, R32). -/
  cart : Cart
  /-- `tag` (R25). -/
  tag : String
  /-- `store` and `storeSize` (R26 to R28). -/
  store : Store
  /-- `bankChanged`, the Bank-Changed Flag (R31). -/
  bankChanged : Bool
  /-- `installed` (R33). -/
  installed : Bool
  /-- `diag`, the diagnostic sink, oldest line first (R34). -/
  diag : List DiagLine
  /-- Every call external devices have had, oldest first: a device's private state is what its calls have made of it
  (R35, R183; log entry 5). -/
  calls : List DevCall
  /-- The result of the last operation (R80; log entry 7). -/
  reply : Reply
  /-- The operations the initiators have issued and the block has not yet begun, in order of issue (R41; log entry 1). -/
  pending : List Transaction
  /-- The numbers, counted over `calls`, of the external calls during which the device issues an operation of this block
  (R183, R203; log entry 9): an input of the run. -/
  reentries : List Nat
  /-- How many CONSTRUCTs have run: the counter the free `captured` draws from (log entry 6), and the mark that a further
  CONSTRUCT replaces a cartridge (R200; log entry 10). -/
  constructs : Nat
deriving DecidableEq, Repr

/-- The descriptor every `captured` slot holds at reset (the spec gives none: R32; log entry 3). -/
def resetCaptured : Desc := { owner := .ext 0, cap := .rw, direct := none, aux := none }

/-- The cartridge present at power-on, before the boot sequence's CONSTRUCT (R190, R193; log entry 3): Multi, one bank,
whose bytes nothing has written. -/
def resetBanks : Banks :=
  { bankCount := 1, bank := 0, bankLocked := false, captured := Vector.replicate 32 resetCaptured }

/-- The machine right after power-on (R38, R190): every page Unmapped (R22), flag, lock and `installed` clear, `diag`
empty, and the cartridge of `resetBanks`. -/
def State.reset : State where
  pt := Vector.replicate 128 .unmapped
  cart := .multi resetBanks
  tag := Config.tagMulti
  store := { size := 4096, cells := [] }
  bankChanged := false
  installed := false
  diag := []
  calls := []
  reply := .none
  pending := []
  reentries := []
  constructs := 0

end Sys2Proof.Machine
end

