-- ==== Sys2Proof/Machine/Flags.lean ====
section
/-! DEFINITION. The one flag, `bankChanged` (10_state.md R31, 44_shared_controls.md R164): the producer's set and the
consumer's clear. -/

namespace Sys2Proof.Machine

/-- `bankChanged <- true`: the producer only ever sets (R31, R164). -/
def State.raiseBankChanged (s : State) : State := { s with bankChanged := true }

/-- `bankChanged <- false`: the consumer's clear (R163). -/
def State.dropBankChanged (s : State) : State := { s with bankChanged := false }

end Sys2Proof.Machine
end

