-- ==== Sys2Proof/Machine/Ops.lean ====
section
/-! DEFINITION. The shared operations: the backing store and the page table, the two translations, device dispatch and
forwarding, the bank selector, the stream primitives, and fetching the next operation. The hardware raises no exception
and has no return from one (60_exceptions.md R174, R179, R180); what stands in for it, the conversion of a stream error to a
`false` result and a diagnostic line (R157), is `streamFailed`. -/

namespace Sys2Proof.Machine

/-! ### The backing store as a list of cells -/

/-- The byte at offset `i`; an unlisted offset reads as `Config.fill`. -/
def Memory.read : Memory → Nat → Byte
  | [], _ => Config.fill
  | (j, v) :: rest, i => if i = j then v else Memory.read rest i

/-- Write one byte, keeping the canonical form: offsets rising, and no cell that says what an unlisted offset reads as. -/
def Memory.write : Memory → Nat → Byte → Memory
  | [], i, v => if v = Config.fill then [] else [(i, v)]
  | (j, w) :: rest, i, v =>
    if i < j then (if v = Config.fill then (j, w) :: rest else (i, v) :: (j, w) :: rest)
    else if i = j then (if v = Config.fill then rest else (j, v) :: rest)
    else (j, w) :: Memory.write rest i v

/-- The cells of a byte sequence laid down from offset `base` upwards. -/
def Memory.ofBytes : Nat → List Byte → Memory
  | _, [] => []
  | base, v :: rest =>
    if v = Config.fill then Memory.ofBytes (base + 1) rest else (base, v) :: Memory.ofBytes (base + 1) rest

/-- Every listed offset is at least `lo`, offsets rise strictly, and no cell holds the unlisted value. -/
def Memory.wfFrom : Nat → Memory → Bool
  | _, [] => true
  | lo, (j, v) :: rest => decide (lo ≤ j) && decide (v ≠ Config.fill) && Memory.wfFrom (j + 1) rest

/-- The canonical form of a backing store's cells. -/
def Memory.wf (m : Memory) : Bool := Memory.wfFrom 0 m

/-- `store[i]`. -/
def Store.read (st : Store) (i : Nat) : Byte := Memory.read st.cells i

/-- `store[i] <- v`. -/
def Store.write (st : Store) (i : Nat) (v : Byte) : Store := { st with cells := Memory.write st.cells i v }

/-- A store of `size` bytes: the fill byte, then `bytes` copied to offsets 0 upwards (R110, R130). -/
def Store.ofBytes (size : Nat) (bytes : List Byte) : Store := { size := size, cells := Memory.ofBytes 0 bytes }

/-! ### The page table -/

/-- `PT[p]`. -/
def PageTable.get (t : PageTable) (p : PageIdx) : PageEntry := t[p.toNat]'p.isLt

/-- Write the entry of every page `which` picks: one SETPAGE each, in one atomic action (R63, R133). -/
def PageTable.publish (t : PageTable) (which : PageIdx → Bool) (d : PageIdx → Desc) : PageTable :=
  Vector.ofFn fun i =>
    if which (BitVec.ofFin i) then .mapped (d (BitVec.ofFin i)) else PageTable.get t (BitVec.ofFin i)

/-- `PT[p] <- d` (R103): always succeeds, whatever the page held. -/
def PageTable.set (t : PageTable) (p : PageIdx) (d : Desc) : PageTable :=
  PageTable.publish t (fun q => q == p) (fun _ => d)

/-- A page table with every entry Unmapped (R22). -/
def PageTable.empty : PageTable := Vector.replicate 128 .unmapped

/-- The Fixed window descriptor of page `p` (R111). -/
def fixedWinDesc (storeSize : Nat) (p : PageIdx) : Desc :=
  { owner := .cart, cap := .ro, direct := some (fixedOffset storeSize (pageBase p)),
    aux := some (fixedOffset storeSize (pageBase p)) }

/-- The Multi window descriptor of page `p` when `bank` is active (R132). -/
def multiWinDesc (bank : Nat) (p : PageIdx) : Desc :=
  { owner := .cart, cap := .ro, direct := some (bankOffset bank (pageBase p)), aux := some (bankOffset bank (pageBase p)) }

/-- The hotspot descriptor `HotDesc` (R131). -/
def hotDesc : Desc := { owner := .cart, cap := .rw, direct := none, aux := none }

/-! ### The variant -/

/-- The variant of the system's cartridge (R2, R24). -/
def Cart.variant : Cart → Variant
  | .fixed => .fixed
  | .multi _ => .multi

/-- VARIANT, as the decoder needs it (R94). -/
def State.variant (s : State) : Variant := s.cart.variant

/-- An operation of the Fixed variant: in a Multi system it does not exist (R94). -/
def onFixed {α : Type} (s : State) (k : Host.Outcome α Fault Refusal) : Host.Outcome α Fault Refusal :=
  match s.cart with
  | .fixed => k
  | .multi _ => .refused .noSuchOperation

/-- An operation of the Multi variant: in a Fixed system it does not exist (R92, R94). -/
def onMulti {α : Type} (s : State) (k : Banks → Host.Outcome α Fault Refusal) : Host.Outcome α Fault Refusal :=
  match s.cart with
  | .fixed => .refused .noSuchOperation
  | .multi b => k b

/-- `return v`: the operation ends and its result is handed to the initiator (00_scope.md section 5). -/
def State.answer (s : State) (r : Reply) : State := { s with reply := r }

/-- Hand the value a shared operation returned to the initiator. -/
def deliver {α : Type} (f : α → Reply) : Host.Outcome (α × State) Fault Refusal → Host.Outcome State Fault Refusal
  | .next (x, s) => .next (s.answer (f x))
  | .fault e => .fault e
  | .refused e => .refused e

/-! ### External devices -/

/-- Every call device `k` has had, oldest first: what its private state depends on (R35). -/
def historyOf (k : Nat) (calls : List DevCall) : List DevAccess :=
  (calls.filter fun c => c.dev == k).map DevCall.access

/-- External device `k` has had one more call. -/
def State.called (s : State) (k : Nat) (x : DevAccess) : State :=
  { s with calls := s.calls ++ [{ dev := k, access := x }] }

/-- Does the device issue an operation of this block during the next external call (R183)? -/
def State.reenteredNext (s : State) : Bool := s.reentries.contains s.calls.length

/-- `Dev(EXT(k)).peek(a)` (R183): a byte, and a change of that device's state alone. -/
def extPeek (k : Nat) (a : BusAddr) (s : State) : Host.Outcome (Byte × State) Fault Refusal :=
  if s.reenteredNext then .refused .deviceReentered
  else .next (Config.extPeek k (historyOf k s.calls) a, s.called k (.peek a))

/-- `Dev(EXT(k)).poke(a, v)` (R183). -/
def extPoke (k : Nat) (a : BusAddr) (v : Byte) (s : State) : Host.Outcome (Bool × State) Fault Refusal :=
  if s.reenteredNext then .refused .deviceReentered
  else .next (Config.extPoke k (historyOf k s.calls) a v, s.called k (.poke a v))

/-- The forward of a hotspot read to the device a captured descriptor names, with the full bus address (R145). -/
def forwardPeek (d : Desc) (a : BusAddr) (s : State) : Host.Outcome (Byte × State) Fault Refusal :=
  match d.owner with
  | .cart => .fault .endlessForward
  | .ext k => extPeek k a s

/-- The forward of a hotspot write: address and data unchanged (R145). -/
def forwardPoke (d : Desc) (a : BusAddr) (v : Byte) (s : State) : Host.Outcome (Bool × State) Fault Refusal :=
  match d.owner with
  | .cart => .fault .endlessForward
  | .ext k => extPoke k a v s

/-! ### The bank selector -/

/-- `captured[h]` (R32). -/
def Banks.slot (b : Banks) (h : Slot) : Desc := b.captured[h.toNat]'h.isLt

/-- `SelectBank(n)` (R133): the bank, all 64 window descriptors and the flag, in one atomic action. -/
def selectBank (n : Nat) (b : Banks) (s : State) : State :=
  { s with cart := .multi { b with bank := n }, pt := PageTable.publish s.pt isWindowPage (multiWinDesc n),
           bankChanged := true }

/-- The startup bank, `bankCount - 1` (R12). -/
def Banks.startBank (b : Banks) : Nat := b.bankCount - 1

/-- M.BANK after its install check (R138): a locked cartridge answers `false` and nothing changes; otherwise the index is
reduced `mod bankCount` and selected. -/
def tryBank (n : Nat) (b : Banks) (s : State) : Bool × State :=
  if b.bankLocked then (false, s) else (true, selectBank (n % b.bankCount) b s)

/-- The common part of a hotspot access (R135, R136, R178): the install check, the switch attempt through M.BANK whose
result is discarded, then the forward to the captured device. -/
def hotspotAccess {α : Type} (a : BusAddr) (b : Banks) (s : State)
    (forward : Desc → State → Host.Outcome (α × State) Fault Refusal) : Host.Outcome (α × State) Fault Refusal :=
  if s.installed then forward (b.slot (slotOf a)) (tryBank (hotBank b.bankCount a) b s).2
  else .refused .notInstalled

/-! ### The cartridge's own peek and poke -/

/-- F.PEEK's value (R112): `store[a & mask]`. -/
def fixedByte (a : Arg) (s : State) : Byte := s.store.read (fixedOffset s.store.size a.toNat)

/-- M.PEEK's value outside the hotspot region (R135): `store[bank * 4096 + (a & 0x0FFF)]`. -/
def bankByte (a : BusAddr) (b : Banks) (s : State) : Byte := s.store.read (bankOffset b.bank a.toNat)

/-- M.PEEK (R135). -/
def multiPeek (a16 : Arg) (b : Banks) (s : State) : Host.Outcome (Byte × State) Fault Refusal :=
  if inHotspot (busAddr a16) then
    hotspotAccess (busAddr a16) b s fun d t => forwardPeek d (busAddr a16) t
  else .next (bankByte (busAddr a16) b s, s)

/-- M.POKE (R136): outside the hotspot region a ROM no-op answering `false`. -/
def multiPoke (a16 : Arg) (v : Byte) (b : Banks) (s : State) : Host.Outcome (Bool × State) Fault Refusal :=
  if inHotspot (busAddr a16) then
    hotspotAccess (busAddr a16) b s fun d t => forwardPoke d (busAddr a16) v t
  else .next (false, s)

/-- `Dev(o).peek(a)` (00_scope.md section 5): the cartridge's own PEEK, or the external device's. -/
def devPeek (o : DeviceId) (a : BusAddr) (s : State) : Host.Outcome (Byte × State) Fault Refusal :=
  match o with
  | .ext k => extPeek k a s
  | .cart =>
    match s.cart with
    | .fixed => .next (fixedByte (a.setWidth 16) s, s)
    | .multi b => multiPeek (a.setWidth 16) b s

/-- `Dev(o).poke(a, v)`: F.POKE always answers `false` (R114), M.POKE is R136's. -/
def devPoke (o : DeviceId) (a : BusAddr) (v : Byte) (s : State) : Host.Outcome (Bool × State) Fault Refusal :=
  match o with
  | .ext k => extPoke k a v s
  | .cart =>
    match s.cart with
    | .fixed => .next (false, s)
    | .multi b => multiPoke (a.setWidth 16) v b s

/-! ### Patching, construction, capture -/

/-- The debugger's overwrite of one store byte: the byte, the flag, and `true` (R115, R139). -/
def patchAt (i : Nat) (v : Byte) (s : State) : State :=
  ({ s with store := s.store.write i v }.raiseBankChanged).answer (.bool true)

/-- What a CONSTRUCT finds (R190, R200; log entry 10): the first one takes the page table as it is (R130); a later one
replaces a cartridge, which is a new power-on of the whole block, so page table and `diag` are as at power-on (R38). -/
def beforeConstruct (s : State) : State :=
  if s.constructs ≠ 0 ∨ s.installed = true then { s with pt := PageTable.empty, diag := [] } else s

/-- The state every CONSTRUCT leaves: the new cartridge, `bankChanged` and `installed` clear (R110, R130). -/
def constructed (cart : Cart) (tag : String) (store : Store) (s : State) : State :=
  { beforeConstruct s with
    cart := cart, tag := tag, store := store, bankChanged := false, installed := false, reply := .none,
    constructs := s.constructs + 1 }

/-- The free content of `captured` after this CONSTRUCT (R32, S4; log entry 6). -/
def freshCaptured (s : State) : Vector Desc 32 := Vector.ofFn fun h => Config.capturedAtConstruct s.constructs h

/-- Why the hotspot page of slot `h` cannot be captured, if it cannot (R137). -/
def captureObstacle (t : PageTable) (h : Slot) : Option Refusal :=
  match PageTable.get t (hotspotPage h) with
  | .unmapped => some .hotspotUnmapped
  | .mapped d => if d.owner = .cart then some .selfCapture else none

/-- The slots 0 .. 31 in order. -/
def allSlots : List Slot := (List.finRange 32).map BitVec.ofFin

/-- The first obstacle M.INSTALL meets, slot by slot (R137). -/
def installObstacle (t : PageTable) : Option Refusal := allSlots.findSome? (captureObstacle t)

/-- The descriptor of a mapped entry. M.INSTALL captures only after finding every hotspot page mapped. -/
def descOr (e : PageEntry) (other : Desc) : Desc :=
  match e with
  | .unmapped => other
  | .mapped d => d

/-- `captured[h] <- PT[32 + h]` for every slot (R137). -/
def captureAll (t : PageTable) : Vector Desc 32 :=
  Vector.ofFn fun h => descOr (PageTable.get t (hotspotPage (BitVec.ofFin h))) hotDesc

/-! ### The persistence stream -/

/-- A put (R150): it appends the item, unless the stream signals StreamError. `true` means it succeeded. -/
def streamPut (item : StreamItem) (s : Stream) : Bool × Stream :=
  match s.putFails with
  | [] => (true, { s with items := s.items ++ [item] })
  | true :: later => (false, { s with putFails := later })
  | false :: later => (true, { s with items := s.items ++ [item], putFails := later })

/-- A get of the items `kind` accepts (R150, U4): `none` is StreamError. An exhausted stream signals; an item of the other
kind signals and is removed all the same; an item of the right kind is returned, unless the stream signals at this get. -/
def streamGet {α : Type} (kind : StreamItem → Option α) (s : Stream) : Option α × Stream :=
  match s.items with
  | [] => (none, { s with gets := s.gets.tail })
  | item :: rest =>
    match kind item, s.gets.headD .serves with
    | some x, .serves => (some x, { s with items := rest, gets := s.gets.tail })
    | some _, .signals itemRemoved =>
      (none, { s with items := if itemRemoved then rest else item :: rest, gets := s.gets.tail })
    | none, _ => (none, { s with items := rest, gets := s.gets.tail })

/-- The text of a string item. -/
def itemString : StreamItem → Option String
  | .str t => some t
  | .short _ => none

/-- The number of a short item. -/
def itemShort : StreamItem → Option (BitVec 16)
  | .str _ => none
  | .short n => some n

/-- `getString` (R150). -/
def streamGetString (s : Stream) : Option String × Stream := streamGet itemString s

/-- `getShort` (R150). -/
def streamGetShort (s : Stream) : Option (BitVec 16) × Stream := streamGet itemShort s

/-- Error conversion (R157): one diagnostic line and a `false` result; nothing else has changed. -/
def streamFailed (line : DiagLine) (after : Stream) (s : State) : State :=
  ({ s with diag := s.diag ++ [line] }).answer (.streamed false after)

/-! ### The next operation -/

/-- The operation issued longest ago, and the state without it; nothing when the initiators have issued none (R41, R191). -/
def fetch (s : State) : Option (Transaction × State) :=
  match s.pending with
  | [] => none
  | t :: rest => some (t, { s with pending := rest })

end Sys2Proof.Machine
end

