-- ==== Sys2Proof/Machine/Bus.lean ====
section
/-! DEFINITION. The bus dispatch operations READ, WRITE, GETPAGE, SETPAGE (40_bus_dispatch.md). -/

namespace Sys2Proof.Machine

/-- `READ a16` (R100): the page's owner answers; an Unmapped page has no meaning. -/
def execRead (a16 : Arg) (s : State) : Host.Outcome State Fault Refusal :=
  match PageTable.get s.pt (pageOf (busAddr a16)) with
  | .unmapped => .refused .unmappedPage
  | .mapped d => deliver .byte (devPeek d.owner (busAddr a16) s)

/-- `WRITE a16, v` (R101): the owner's poke decides; `cap` is not tested (R69). -/
def execWrite (a16 : Arg) (v : Byte) (s : State) : Host.Outcome State Fault Refusal :=
  match PageTable.get s.pt (pageOf (busAddr a16)) with
  | .unmapped => .refused .unmappedPage
  | .mapped d => deliver .bool (devPoke d.owner (busAddr a16) v s)

/-- `GETPAGE p` (R102). -/
def execGetpage (p : Arg) (s : State) : Host.Outcome State Fault Refusal :=
  match pageArg? p with
  | none => .refused .pageIndexRange
  | some q => .next (s.answer (.entry (PageTable.get s.pt q)))

/-- `SETPAGE p, d` (R103). -/
def execSetpage (p : Arg) (d : Desc) (s : State) : Host.Outcome State Fault Refusal :=
  match pageArg? p with
  | none => .refused .pageIndexRange
  | some q => .next ({ s with pt := PageTable.set s.pt q d }.answer .none)

end Sys2Proof.Machine
end

