-- ==== Sys2Proof/Machine/Control.lean ====
section
/-! DEFINITION. The debug controls: the bank lock and the Bank-Changed Flag (44_shared_controls.md). -/

namespace Sys2Proof.Machine

/-- `LOCKBANK` (R160). -/
def execLockbank (s : State) : Host.Outcome State Fault Refusal :=
  onMulti s fun b => .next ({ s with cart := .multi { b with bankLocked := true } }.answer .none)

/-- `UNLOCKBANK` (R161). -/
def execUnlockbank (s : State) : Host.Outcome State Fault Refusal :=
  onMulti s fun b => .next ({ s with cart := .multi { b with bankLocked := false } }.answer .none)

/-- `BANKCHANGED` (R162): the read does not clear. -/
def execBankchanged (s : State) : Host.Outcome State Fault Refusal := .next (s.answer (.bool s.bankChanged))

/-- `CLEARBANKCHANGED` (R163). -/
def execClearbankchanged (s : State) : Host.Outcome State Fault Refusal := .next (s.dropBankChanged.answer .none)

end Sys2Proof.Machine
end

