-- ==== Sys2Proof/Machine/Fixed.lean ====
section
/-! DEFINITION. The Fixed/no-bank cartridge's operations (41_cart_fixed.md). -/

namespace Sys2Proof.Machine

/-- `F.CONSTRUCT image, requestedSize` (R110). -/
def execFConstruct (image : List Byte) (requestedSize : Nat) (s : State) : Host.Outcome State Fault Refusal :=
  if image.length < fixedCopied requestedSize then .refused .badImage
  else .next (constructed .fixed Config.tagFixed
    (Store.ofBytes (fixedStoreSize requestedSize) (image.take (fixedCopied requestedSize))) s)

/-- `F.INSTALL` (R113): the 64 window descriptors and `installed`; the flag is not touched. -/
def execFInstall (s : State) : Host.Outcome State Fault Refusal :=
  onFixed s
    (if s.installed then .refused .doubleInstall
     else .next ({ s with pt := PageTable.publish s.pt isWindowPage (fixedWinDesc s.store.size),
                          installed := true }.answer .none))

/-- `F.RESET` (R116). -/
def execFReset (s : State) : Host.Outcome State Fault Refusal :=
  onFixed s (.next (s.raiseBankChanged.answer .none))

/-- `F.PEEK a` (R112). -/
def execFPeek (a : Arg) (s : State) : Host.Outcome State Fault Refusal :=
  onFixed s (.next (s.answer (.byte (fixedByte a s))))

/-- `F.POKE a, v` (R114): always `false`, whatever the operands. -/
def execFPoke (_a : Arg) (_v : Byte) (s : State) : Host.Outcome State Fault Refusal :=
  onFixed s (.next (s.answer (.bool false)))

/-- `F.PATCH a, v` (R115). -/
def execFPatch (a : Arg) (v : Byte) (s : State) : Host.Outcome State Fault Refusal :=
  onFixed s (.next (patchAt (fixedOffset s.store.size a.toNat) v s))

/-- `F.BANK b` (R117): a no-op answering `false`. -/
def execFBank (_b : Arg) (s : State) : Host.Outcome State Fault Refusal :=
  onFixed s (.next (s.answer (.bool false)))

/-- `F.GETBANK` (R118). -/
def execFGetbank (s : State) : Host.Outcome State Fault Refusal :=
  onFixed s (.next (s.answer (.number 0)))

/-- `F.BANKCOUNT` (R119). -/
def execFBankcount (s : State) : Host.Outcome State Fault Refusal :=
  onFixed s (.next (s.answer (.number 1)))

/-- `F.GETIMAGE` (R120): the store as it stands, and the rounded size. -/
def execFGetimage (s : State) : Host.Outcome State Fault Refusal :=
  onFixed s (.next (s.answer (.image s.store s.store.size)))

/-- `F.TAG` (R121). -/
def execFTag (s : State) : Host.Outcome State Fault Refusal :=
  onFixed s (.next (s.answer (.text s.tag)))

end Sys2Proof.Machine
end

