-- ==== Sys2Proof/Machine/Multi.lean ====
section
/-! DEFINITION. The hotspot multi-bank cartridge's operations (42_cart_multibank.md). -/

namespace Sys2Proof.Machine

/-- `M.CONSTRUCT image` (R130): the store is exactly the image and the top bank is active. -/
def execMConstruct (image : List Byte) (s : State) : Host.Outcome State Fault Refusal :=
  if goodMultiImageSize image.length then
    .next (constructed
      (.multi { bankCount := image.length / Config.bankSize, bank := image.length / Config.bankSize - 1,
                bankLocked := false, captured := freshCaptured s })
      Config.tagMulti (Store.ofBytes image.length image) s)
  else .refused .badImage

/-- `M.INSTALL` (R137): every check, then the captures, then the hotspot pages, then the startup bank. -/
def execMInstall (s : State) : Host.Outcome State Fault Refusal :=
  onMulti s fun b =>
    if s.installed then .refused .doubleInstall
    else match installObstacle s.pt with
      | some r => .refused r
      | none =>
        .next ((selectBank b.startBank { b with captured := captureAll s.pt }
          { s with pt := PageTable.publish s.pt isHotspotPage (fun _ => hotDesc), installed := true }).answer .none)

/-- `M.RESET` (R140): the startup bank; the lock is not consulted. -/
def execMReset (s : State) : Host.Outcome State Fault Refusal :=
  onMulti s fun b =>
    if s.installed then .next ((selectBank b.startBank b s).answer .none) else .refused .notInstalled

/-- `M.PEEK a16` at a hotspot address (R135). -/
def execMPeekHotspot (a : Arg) (s : State) : Host.Outcome State Fault Refusal :=
  onMulti s fun b => deliver .byte (multiPeek a b s)

/-- `M.PEEK a16` at a window address (R135). -/
def execMPeekWindow (a : Arg) (s : State) : Host.Outcome State Fault Refusal :=
  onMulti s fun b => deliver .byte (multiPeek a b s)

/-- `M.PEEK a16` at an address of 0x0000 .. 0x07FF, a direct call only (R135). -/
def execMPeekLow (a : Arg) (s : State) : Host.Outcome State Fault Refusal :=
  onMulti s fun b => deliver .byte (multiPeek a b s)

/-- `M.POKE a16, v` at a hotspot address (R136). -/
def execMPokeHotspot (a : Arg) (v : Byte) (s : State) : Host.Outcome State Fault Refusal :=
  onMulti s fun b => deliver .bool (multiPoke a v b s)

/-- `M.POKE a16, v` at a window address (R136). -/
def execMPokeWindow (a : Arg) (v : Byte) (s : State) : Host.Outcome State Fault Refusal :=
  onMulti s fun b => deliver .bool (multiPoke a v b s)

/-- `M.POKE a16, v` at an address of 0x0000 .. 0x07FF, a direct call only (R136). -/
def execMPokeLow (a : Arg) (v : Byte) (s : State) : Host.Outcome State Fault Refusal :=
  onMulti s fun b => deliver .bool (multiPoke a v b s)

/-- `M.PATCH a, v` (R139): a byte of the active bank; no switch, no forward, and the lock does not stop it. -/
def execMPatch (a : Arg) (v : Byte) (s : State) : Host.Outcome State Fault Refusal :=
  onMulti s fun b => .next (patchAt (bankOffset b.bank a.toNat) v s)

/-- `M.BANK b` (R138). -/
def execMBank (n : Arg) (s : State) : Host.Outcome State Fault Refusal :=
  onMulti s fun b =>
    if s.installed then deliver .bool (.next (tryBank n.toNat b s)) else .refused .notInstalled

/-- `M.GETBANK` (R141). -/
def execMGetbank (s : State) : Host.Outcome State Fault Refusal :=
  onMulti s fun b => .next (s.answer (.number b.bank))

/-- `M.BANKCOUNT` (R142). -/
def execMBankcount (s : State) : Host.Outcome State Fault Refusal :=
  onMulti s fun b => .next (s.answer (.number b.bankCount))

/-- `M.GETIMAGE` (R143). -/
def execMGetimage (s : State) : Host.Outcome State Fault Refusal :=
  onMulti s fun _ => .next (s.answer (.image s.store s.store.size))

/-- `M.TAG` (R144). -/
def execMTag (s : State) : Host.Outcome State Fault Refusal :=
  onMulti s fun _ => .next (s.answer (.text s.tag))

end Sys2Proof.Machine
end

