-- ==== Sys2Proof/Machine/Persistence.lean ====
section
/-! DEFINITION. The persistence adapter: SAVE and LOAD of both variants (43_persistence.md). -/

namespace Sys2Proof.Machine

/-- `F.SAVE s` (R153). -/
def execFSave (st : Stream) (s : State) : Host.Outcome State Fault Refusal :=
  onFixed s
    (match streamPut (.str s.tag) st with
     | (false, st1) => .next (streamFailed .save st1 s)
     | (true, st1) => .next (s.answer (.streamed true st1)))

/-- `M.SAVE s` (R155). The bank index is below 65536 in every reachable state (R11), so the 16-bit item holds it whole. -/
def execMSave (st : Stream) (s : State) : Host.Outcome State Fault Refusal :=
  onMulti s fun b =>
    match streamPut (.str s.tag) st with
    | (false, st1) => .next (streamFailed .save st1 s)
    | (true, st1) =>
      match streamPut (.short (BitVec.ofNat 16 b.bank)) st1 with
      | (false, st2) => .next (streamFailed .save st2 s)
      | (true, st2) => .next (s.answer (.streamed true st2))

/-- `F.LOAD s` (R154): a stream failure leaves a diagnostic line, a tag mismatch does not (R171). -/
def execFLoad (st : Stream) (s : State) : Host.Outcome State Fault Refusal :=
  onFixed s
    (match streamGetString st with
     | (none, st1) => .next (streamFailed .load st1 s)
     | (some t, st1) => .next (s.answer (.streamed (decide (t = s.tag)) st1)))

/-- `M.LOAD s` (R156): tag, then bank, then the select; the lock is not consulted. -/
def execMLoad (st : Stream) (s : State) : Host.Outcome State Fault Refusal :=
  onMulti s fun b =>
    if s.installed then
      match streamGetString st with
      | (none, st1) => .next (streamFailed .load st1 s)
      | (some t, st1) =>
        if t = s.tag then
          match streamGetShort st1 with
          | (none, st2) => .next (streamFailed .load st2 s)
          | (some n, st2) => .next ((selectBank (n.toNat % b.bankCount) b s).answer (.streamed true st2))
        else .next (s.answer (.streamed false st1))
    else .refused .notInstalled

end Sys2Proof.Machine
end

