-- ==== Sys2Proof/Machine/Dispatch.lean ====
section
/-! DEFINITION. One arm per operation of spec/opcode_table.json (30_encoding.md R81), each a direct call of its meaning. -/

namespace Sys2Proof.Machine

def exec (i : Instr) (s : State) : Host.Outcome State Fault Refusal :=
  match i with
  | .read a => Sys2Proof.Machine.execRead a s
  | .write a v => Sys2Proof.Machine.execWrite a v s
  | .getpage p => Sys2Proof.Machine.execGetpage p s
  | .setpage p d => Sys2Proof.Machine.execSetpage p d s
  | .fConstruct image n => Sys2Proof.Machine.execFConstruct image n s
  | .mConstruct image => Sys2Proof.Machine.execMConstruct image s
  | .fInstall => Sys2Proof.Machine.execFInstall s
  | .mInstall => Sys2Proof.Machine.execMInstall s
  | .fReset => Sys2Proof.Machine.execFReset s
  | .mReset => Sys2Proof.Machine.execMReset s
  | .fPeek a => Sys2Proof.Machine.execFPeek a s
  | .mPeekHotspot a => Sys2Proof.Machine.execMPeekHotspot a s
  | .mPeekWindow a => Sys2Proof.Machine.execMPeekWindow a s
  | .mPeekLow a => Sys2Proof.Machine.execMPeekLow a s
  | .fPoke a v => Sys2Proof.Machine.execFPoke a v s
  | .mPokeHotspot a v => Sys2Proof.Machine.execMPokeHotspot a v s
  | .mPokeWindow a v => Sys2Proof.Machine.execMPokeWindow a v s
  | .mPokeLow a v => Sys2Proof.Machine.execMPokeLow a v s
  | .fPatch a v => Sys2Proof.Machine.execFPatch a v s
  | .mPatch a v => Sys2Proof.Machine.execMPatch a v s
  | .fBank b => Sys2Proof.Machine.execFBank b s
  | .mBank b => Sys2Proof.Machine.execMBank b s
  | .fGetbank => Sys2Proof.Machine.execFGetbank s
  | .mGetbank => Sys2Proof.Machine.execMGetbank s
  | .fBankcount => Sys2Proof.Machine.execFBankcount s
  | .mBankcount => Sys2Proof.Machine.execMBankcount s
  | .fGetimage => Sys2Proof.Machine.execFGetimage s
  | .mGetimage => Sys2Proof.Machine.execMGetimage s
  | .fTag => Sys2Proof.Machine.execFTag s
  | .mTag => Sys2Proof.Machine.execMTag s
  | .fSave st => Sys2Proof.Machine.execFSave st s
  | .mSave st => Sys2Proof.Machine.execMSave st s
  | .fLoad st => Sys2Proof.Machine.execFLoad st s
  | .mLoad st => Sys2Proof.Machine.execMLoad st s
  | .lockbank => Sys2Proof.Machine.execLockbank s
  | .unlockbank => Sys2Proof.Machine.execUnlockbank s
  | .bankchanged => Sys2Proof.Machine.execBankchanged s
  | .clearbankchanged => Sys2Proof.Machine.execClearbankchanged s

end Sys2Proof.Machine
end

