-- ==== Sys2Proof/Machine/Step.lean ====
section
/-! DEFINITION. One step: the operation issued longest ago is decoded and runs to completion (20_memory.md R63, R64). -/

namespace Sys2Proof.Machine

/-- One step. With nothing issued the block does nothing (R191); a transaction that spells no operation is refused (R92). -/
def step (s : State) : Host.Outcome State Fault Refusal :=
  match fetch s with
  | none => .next s
  | some (t, s') =>
    match decode s.variant t with
    | .instr i => exec i s'
    | .rejected _ => .refused .noSuchOperation

/-- `s` with the operation of a bare word issued ahead of everything else, so that the next step runs it (log entry 1). -/
def State.withFetchWord (s : State) (nbits w : Nat) : State :=
  { s with pending := bareTransaction nbits w :: s.pending }

end Sys2Proof.Machine
end

