-- ==== Sys2Proof/Machine/Pseudo.lean ====
section
/-! DEFINITION. The pseudo-operations of 30_encoding.md R97, each as the operations it expands to, and a way to issue a list of
operations. -/

namespace Sys2Proof.Machine

/-- `SWITCH b`: the read of the first hotspot address whose low bits are `b` (R97). -/
def switchTo (b : Nat) : Instr := .read (BitVec.ofNat 16 (0x0800 + b))

/-- The descriptor an external device's own install publishes (R97). -/
def extDesc (k : Nat) : Desc := { owner := .ext k, cap := .rw, direct := none, aux := none }

/-- `INSTALLDEV k,lo,hi`: one SETPAGE for every page from `lo` to `hi` (R97). -/
def installDev (k lo hi : Nat) : List Instr :=
  (List.range' lo (hi + 1 - lo)).map fun p => .setpage (BitVec.ofNat 16 p) (extDesc k)

/-- `POWERON` of a Fixed system whose pages 0 .. 63 belong to `EXT(k)` (R97, R193). -/
def powerOnFixed (k : Nat) (image : List Byte) (requestedSize : Nat) : List Instr :=
  .fConstruct image requestedSize :: (installDev k 0 63 ++ [.fInstall, .fReset])

/-- `POWERON` of a Multi system whose pages 0 .. 63 belong to `EXT(k)` (R97, R193). -/
def powerOnMulti (k : Nat) (image : List Byte) : List Instr :=
  .mConstruct image :: (installDev k 0 63 ++ [.mInstall, .mReset])

/-- The initiators issue `ops`, in this order, after what they have issued already (R41). -/
def issue (ops : List Instr) (s : State) : State := { s with pending := s.pending ++ ops.map encode }

end Sys2Proof.Machine
end

