-- ==== Sys2Proof/Safety.lean ====
section
/-! DEFINITION. What a safe state is, in the terms the statements use: the block's invariant, and the coherence of the page
table with the cartridge (10_state.md section 7). -/

namespace Sys2Proof.Machine

/-- The sizes a Fixed store can have (R27). -/
def fixedSizes : List Nat := [64, 128, 256, 512, 1024, 2048]

/-- The geometry of a cartridge: R27 for Fixed; R11, R28 and `0 <= bank < bankCount` (R29) for Multi. -/
def Cart.shapeOk (c : Cart) (storeSize : Nat) : Prop :=
  match c with
  | .fixed => storeSize ∈ fixedSizes
  | .multi b => 1 ≤ b.bankCount ∧ b.bankCount ≤ Config.maxBanks ∧ storeSize = b.bankCount * Config.bankSize ∧ b.bank < b.bankCount

/-- No captured descriptor names the cartridge itself (R145), so that a forward leaves the cartridge. -/
def Cart.forwardsOutside (c : Cart) : Prop :=
  match c with
  | .fixed => True
  | .multi b => ∀ h : Slot, (b.slot h).owner ≠ .cart

/-- The invariant of the block. -/
structure State.Inv (s : State) : Prop where
  /-- The store's cells are in canonical form. -/
  canonical : Memory.wf s.store.cells = true
  /-- No cell lies outside the store (R71). -/
  bounded : ∀ c ∈ s.store.cells, c.1 < s.store.size
  /-- Sizes and bank index are legal (R27, R28, R29). -/
  shape : s.cart.shapeOk s.store.size
  /-- The tag is the variant's (R25). -/
  tag : s.tag = Config.tagOf s.variant
  /-- After INSTALL every hotspot access is forwarded outside the cartridge (R145). -/
  forwards : s.installed = true → s.cart.forwardsOutside

/-- `WinDesc(p)` for the cartridge as it is now (R111, R132). -/
def State.winDesc (s : State) (p : PageIdx) : Desc :=
  match s.cart with
  | .fixed => fixedWinDesc s.store.size p
  | .multi b => multiWinDesc b.bank p

/-- Table coherence: after INSTALL every window page holds `WinDesc` (R36) and, for Multi, every hotspot page `HotDesc` (R37). -/
structure State.Coherent (s : State) : Prop where
  window : s.installed = true → ∀ p, isWindowPage p = true → PageTable.get s.pt p = .mapped (s.winDesc p)
  hotspot : s.installed = true → s.variant = .multi → ∀ p, isHotspotPage p = true → PageTable.get s.pt p = .mapped hotDesc

/-- The first page the cartridge publishes: 64 for Fixed, 32 for Multi (R36, R37). -/
def Cart.firstPage : Cart → Nat
  | .fixed => 64
  | .multi _ => 32

/-- The operation is no SETPAGE over a page the cartridge publishes: the proviso of R36 and R37 (R204). -/
def leavesCartPages (c : Cart) : Instr → Bool
  | .setpage p _ => decide (p.toNat < c.firstPage)
  | _ => true

/-- The next operation, if there is one, is no SETPAGE over a page the cartridge publishes. -/
def State.nextLeavesCartPages (s : State) : Bool :=
  match fetch s with
  | none => true
  | some (t, _) =>
    match decode s.variant t with
    | .instr i => leavesCartPages s.cart i
    | .rejected _ => true

end Sys2Proof.Machine
end

