-- ==== Sys2Proof/Certificates/Slice0/Obligations.lean ====
section
/-! DEFINITION. The statements for the provers. `.next` in a conclusion says that the operation completes; a state written
`{ s with … }` says that every field not named is unchanged. -/

open Sys2Proof Sys2Proof.Machine

/-! ### Terms the statements share -/

/-- The descriptor R132 gives window page `p` when bank `n` is active, by the formula of 95_test_vectors.md section 2.3. -/
def Sys2Proof.Claims.windowDesc (n : Nat) (p : PageIdx) : Desc :=
  { owner := .cart, cap := .ro, direct := some (n * 4096 + (p.toNat - 64) * 64), aux := some (n * 4096 + (p.toNat - 64) * 64) }

/-- What `SelectBank(n)` has done between `s` and `t` (R133): the bank, the 64 window entries and no other, the flag. -/
def Sys2Proof.Claims.BankSelected (b : Banks) (n : Nat) (s t : State) : Prop :=
  t.cart = .multi { b with bank := n } ∧ t.bankChanged = true ∧
  ∀ p : PageIdx, PageTable.get t.pt p = if 64 ≤ p.toNat then .mapped (Sys2Proof.Claims.windowDesc n p) else PageTable.get s.pt p

/-- The three constructors of M.PEEK, for one address. -/
def Sys2Proof.Claims.mPeekForms (a : Arg) : List Instr := [.mPeekHotspot a, .mPeekWindow a, .mPeekLow a]

/-- The three constructors of M.POKE, for one address and byte. -/
def Sys2Proof.Claims.mPokeForms (a : Arg) (v : Byte) : List Instr := [.mPokeHotspot a v, .mPokeWindow a v, .mPokeLow a v]

/-- CONSTRUCT in either variant. -/
def Sys2Proof.Claims.isConstruct : Instr → Bool
  | .fConstruct _ _ | .mConstruct _ => true
  | _ => false

/-- The address of a READ, WRITE, M.PEEK or M.POKE. -/
def Sys2Proof.Claims.busOperand : Instr → Option Arg
  | .read a | .write a _ | .mPeekHotspot a | .mPeekWindow a | .mPeekLow a | .mPokeHotspot a _ | .mPokeWindow a _
  | .mPokeLow a _ => some a
  | _ => none

/-- A READ, WRITE, M.PEEK or M.POKE of an address in 0x0800 .. 0x0FFF (after `& 0x1FFF`). -/
def Sys2Proof.Claims.isHotspotAccess (i : Instr) : Prop :=
  ∃ a, Sys2Proof.Claims.busOperand i = some a ∧ 0x0800 ≤ a.toNat % 8192 ∧ a.toNat % 8192 ≤ 0x0FFF

/-- `n` steps, stopping at the first fault or refusal. -/
def Sys2Proof.Claims.runSteps : Nat → State → Host.Outcome State Fault Refusal
  | 0, s => .next s
  | n + 1, s =>
    match step s with
    | .next t => Sys2Proof.Claims.runSteps n t
    | .fault f => .fault f
    | .refused r => .refused r

open Sys2Proof.Claims

/-! ### Encoding, decoding and stepping -/

/-- Encoding loses nothing: every well-formed operation of a system's variant decodes back to itself (30_encoding.md). -/
def Obligations.DecodeOfEncodeIsIdentity : Prop :=
  ∀ (v : Variant) (i : Instr), i.wf = true → i.existsIn v = true → decode v (encode i) = .instr i

/-- What the decoder gives is well formed, belongs to the variant, keeps the selector, and has the same canonical reading. -/
def Obligations.DecodedOperationIsWellFormed : Prop :=
  ∀ (v : Variant) (t : Transaction) (i : Instr), decode v t = .instr i →
    i.wf = true ∧ i.existsIn v = true ∧ i.sel = selOf t.word ∧ decode v (encode i) = .instr i

/-- Words written out in 95_test_vectors.md section 3 decode to the operations beside them. -/
def Obligations.TestVectorWordsDecode : Prop :=
  decode .fixed (bareTransaction 32 0x00180000) = .instr (.read 0x1800) ∧
  decode .multi (bareTransaction 32 0x0108005A) = .instr (.write 0x0800 0x5A) ∧
  decode .multi (bareTransaction 32 0x02004000) = .instr (.getpage 0x0040) ∧
  decode .fixed (bareTransaction 32 0x141800AB) = .instr (.fPatch 0x1800 0xAB) ∧
  decode .multi (bareTransaction 32 0x15000600) = .instr (.mBank 6) ∧
  decode .multi (bareTransaction 32 0x20000000) = .instr .lockbank ∧
  decode .fixed (bareTransaction 32 0x16000000) = .instr .fGetbank ∧
  decode .multi (bareTransaction 32 0x16000000) = .instr .mGetbank

/-- R92: unassigned selectors, and LOCKBANK and UNLOCKBANK in a Fixed system, spell no operation. -/
def Obligations.UnassignedSelectorsAreRefused : Prop :=
  ∀ (s : State) (t : Transaction) (rest : List Transaction), s.pending = t :: rest →
    (selOf t.word ∉ [0x00#8, 0x01#8, 0x02#8, 0x03#8, 0x0F#8, 0x10#8, 0x11#8, 0x12#8, 0x13#8, 0x14#8, 0x15#8, 0x16#8, 0x17#8,
        0x18#8, 0x19#8, 0x1A#8, 0x1B#8, 0x20#8, 0x21#8, 0x22#8, 0x23#8] ∨
      (s.cart = .fixed ∧ (selOf t.word = 0x20#8 ∨ selOf t.word = 0x21#8))) →
    step s = .refused .noSuchOperation

/-- R93: two words that differ only in fields their operation ignores do the same. -/
def Obligations.IgnoredFieldsDoNotMatter : Prop :=
  ∀ (s : State) (x : Beside) (sel : BitVec 8) (a a' : Arg) (d d' : Byte),
    ((sel = 0x00#8 ∨ (sel = 0x12#8 ∧ s.variant = .multi)) ∧ a &&& 0x1FFF#16 = a' &&& 0x1FFF#16) ∨
    ((sel = 0x01#8 ∨ (sel = 0x13#8 ∧ s.variant = .multi)) ∧ a &&& 0x1FFF#16 = a' &&& 0x1FFF#16 ∧ d = d') ∨
    (sel = 0x12#8 ∧ s.variant = .fixed ∧ a.toNat &&& (s.store.size - 1) = a'.toNat &&& (s.store.size - 1)) ∨
    ((sel = 0x13#8 ∨ sel = 0x14#8) ∧ s.variant = .fixed ∧
      a.toNat &&& (s.store.size - 1) = a'.toNat &&& (s.store.size - 1) ∧ d = d') ∨
    (sel = 0x14#8 ∧ s.variant = .multi ∧ a &&& 0x0FFF#16 = a' &&& 0x0FFF#16 ∧ d = d') ∨
    ((sel = 0x02#8 ∨ sel = 0x03#8 ∨ (sel = 0x15#8 ∧ s.variant = .multi)) ∧ a = a') ∨
    (sel = 0x15#8 ∧ s.variant = .fixed) ∨
    sel ∈ [0x0F#8, 0x10#8, 0x11#8, 0x16#8, 0x17#8, 0x18#8, 0x19#8, 0x1A#8, 0x1B#8, 0x20#8, 0x21#8, 0x22#8, 0x23#8] →
    step { s with pending := { word := mkWord sel a d, beside := x } :: s.pending } =
      step { s with pending := { word := mkWord sel a' d', beside := x } :: s.pending }

/-- A step runs the operation issued longest ago, without it in the queue; with nothing issued the block does nothing. -/
def Obligations.StepRunsTheDecodedOperation : Prop :=
  (∀ s : State, s.pending = [] → step s = .next s) ∧
  (∀ (s : State) (t : Transaction) (rest : List Transaction) (i : Instr), s.pending = t :: rest →
    decode s.variant t = .instr i → step s = exec i { s with pending := rest }) ∧
  (∀ (s : State) (t : Transaction) (rest : List Transaction) (r : Reject), s.pending = t :: rest →
    decode s.variant t = .rejected r → step s = .refused .noSuchOperation)

/-- An operation of one variant does not exist in a system of the other (R94). -/
def Obligations.OtherVariantsOperationsAreRefused : Prop :=
  ∀ (s : State) (i : Instr), i.existsIn s.variant = false → exec i s = .refused .noSuchOperation

/-! ### Power-on, the invariant, coherence -/

/-- The power-on values of 10_state.md section 7. That the cartridge is a one-bank Multi before the first CONSTRUCT is the
model's choice (log entry 3). -/
def Obligations.ResetHoldsPowerOnValues : Prop :=
  (∀ p, PageTable.get State.reset.pt p = .unmapped) ∧ State.reset.bankChanged = false ∧ State.reset.installed = false ∧
  State.reset.diag = [] ∧ State.reset.tag = Config.tagMulti ∧
  ∃ b, State.reset.cart = .multi b ∧ b.bank = b.bankCount - 1 ∧ b.bankLocked = false ∧ State.reset.store.size = b.bankCount * 4096

/-- The reset state meets the invariant, and its table is coherent. -/
def Obligations.ResetMeetsInvariant : Prop := State.reset.Inv ∧ State.reset.Coherent

/-- Every step keeps the invariant: canonical store within its size, legal geometry and bank index, the variant's tag, and
forwards that leave the cartridge (R25, R27 to R29, R71, R145). -/
def Obligations.StepKeepsInvariant : Prop :=
  ∀ s t : State, s.Inv → step s = .next t → t.Inv

/-- No step from an invariant state faults: the hardware raises nothing (R174), and no forward is endless (R145, R198). -/
def Obligations.StepNeverFaults : Prop :=
  ∀ (s : State) (f : Fault), s.Inv → step s ≠ .fault f

/-- R36, R37: while no SETPAGE overwrites a page the cartridge published, the table stays coherent; INSTALL makes it so. -/
def Obligations.StepKeepsTableCoherence : Prop :=
  ∀ s t : State, s.Coherent → s.nextLeavesCartPages = true → step s = .next t → t.Coherent

/-- R22: every page is Unmapped at power-on, and a READ or WRITE that reaches an Unmapped entry is refused. -/
def Obligations.UnmappedPagesAreRefused : Prop :=
  (∀ p, PageTable.get State.reset.pt p = .unmapped) ∧
  ∀ (s : State) (a : Arg) (v : Byte), PageTable.get s.pt (pageOf (busAddr a)) = .unmapped →
    exec (.read a) s = .refused .unmappedPage ∧ exec (.write a v) s = .refused .unmappedPage

/-! ### Bus dispatch -/

/-- R102. -/
def Obligations.GetpageReturnsTheEntry : Prop :=
  ∀ (s : State) (p : Arg),
    (p.toNat ≤ 127 → exec (.getpage p) s = .next { s with reply := .entry (PageTable.get s.pt (p.setWidth 7)) }) ∧
    (127 < p.toNat → exec (.getpage p) s = .refused .pageIndexRange)

/-- R103. -/
def Obligations.SetpageWritesOneEntry : Prop :=
  ∀ (s : State) (p : Arg) (d : Desc),
    (p.toNat ≤ 127 → ∃ t, exec (.setpage p d) s = .next t ∧ PageTable.get t.pt (p.setWidth 7) = .mapped d ∧
      (∀ q : PageIdx, q ≠ p.setWidth 7 → PageTable.get t.pt q = PageTable.get s.pt q) ∧
      t = { s with pt := t.pt, reply := .none }) ∧
    (127 < p.toNat → exec (.setpage p d) s = .refused .pageIndexRange)

/-- READ and WRITE of a page an external device owns: one call of that device with the 13-bit address, its answer (a free
value, log entry 5) the result; refused if the device issues an operation meanwhile (R183). `cap` plays no part (R69). -/
def Obligations.ExternalPageAccessCallsTheDevice : Prop :=
  ∀ (s : State) (a : Arg) (v : Byte) (d : Desc) (k : Nat),
    PageTable.get s.pt (pageOf (busAddr a)) = .mapped d → d.owner = .ext k →
    (s.calls.length ∉ s.reentries →
      exec (.read a) s = .next { s with reply := .byte (Config.extPeek k (historyOf k s.calls) (busAddr a)),
                                        calls := s.calls ++ [{ dev := k, access := .peek (busAddr a) }] } ∧
      exec (.write a v) s = .next { s with reply := .bool (Config.extPoke k (historyOf k s.calls) (busAddr a) v),
                                           calls := s.calls ++ [{ dev := k, access := .poke (busAddr a) v }] }) ∧
    (s.calls.length ∈ s.reentries →
      exec (.read a) s = .refused .deviceReentered ∧ exec (.write a v) s = .refused .deviceReentered)

/-- A window READ of an installed Fixed system gives `store[a & mask]` and a window WRITE answers `false`; neither changes
anything else (R57, R62, R104). -/
def Obligations.FixedWindowAccess : Prop :=
  ∀ (s : State) (a : Arg) (v : Byte), s.Inv → s.Coherent → s.cart = .fixed → s.installed = true → a.getLsbD 12 = true →
    exec (.read a) s = .next { s with reply := .byte (s.store.read (a.toNat &&& (s.store.size - 1))) } ∧
    exec (.write a v) s = .next { s with reply := .bool false }

/-- A window READ of an installed Multi system gives byte `a & 0x0FFF` of the active bank and a window WRITE answers `false`;
neither changes anything else (R58, R62). -/
def Obligations.MultiWindowAccess : Prop :=
  ∀ (s : State) (b : Banks) (a : Arg) (v : Byte), s.Coherent → s.cart = .multi b → s.installed = true → a.getLsbD 12 = true →
    exec (.read a) s = .next { s with reply := .byte (s.store.read (b.bank * 4096 + (a.toNat &&& 0x0FFF))) } ∧
    exec (.write a v) s = .next { s with reply := .bool false }

/-- An unlocked hotspot READ selects bank `a & (bankCount - 1)`, republishes the window, sets the flag, and returns what the
captured device answers to the unchanged 13-bit address (R134, R135, R145). -/
def Obligations.UnlockedHotspotReadSwitchesAndForwards : Prop :=
  ∀ (s : State) (b : Banks) (a : Arg) (k : Nat), s.Inv → s.Coherent → s.cart = .multi b → s.installed = true →
    b.bankLocked = false → inHotspot (busAddr a) = true → (b.slot (slotOf (busAddr a))).owner = .ext k →
    s.calls.length ∉ s.reentries →
    ∃ t, exec (.read a) s = .next t ∧ BankSelected b ((busAddr a).toNat &&& (b.bankCount - 1)) s t ∧
      t.reply = .byte (Config.extPeek k (historyOf k s.calls) (busAddr a)) ∧
      t.calls = s.calls ++ [{ dev := k, access := .peek (busAddr a) }] ∧
      t = { s with cart := t.cart, pt := t.pt, bankChanged := true, reply := t.reply, calls := t.calls }

/-- An unlocked hotspot WRITE does the same with the device's poke; the data byte plays no part in the selection (R136). -/
def Obligations.UnlockedHotspotWriteSwitchesAndForwards : Prop :=
  ∀ (s : State) (b : Banks) (a : Arg) (v : Byte) (k : Nat), s.Inv → s.Coherent → s.cart = .multi b → s.installed = true →
    b.bankLocked = false → inHotspot (busAddr a) = true → (b.slot (slotOf (busAddr a))).owner = .ext k →
    s.calls.length ∉ s.reentries →
    ∃ t, exec (.write a v) s = .next t ∧ BankSelected b ((busAddr a).toNat &&& (b.bankCount - 1)) s t ∧
      t.reply = .bool (Config.extPoke k (historyOf k s.calls) (busAddr a) v) ∧
      t.calls = s.calls ++ [{ dev := k, access := .poke (busAddr a) v }] ∧
      t = { s with cart := t.cart, pt := t.pt, bankChanged := true, reply := t.reply, calls := t.calls }

/-- While locked, a hotspot access through the bus or a direct call switches nothing and sets no flag, and is still forwarded
(R165). -/
def Obligations.LockedHotspotAccessOnlyForwards : Prop :=
  ∀ (s : State) (b : Banks) (a : Arg) (v : Byte) (k : Nat), s.Coherent → s.cart = .multi b → s.installed = true →
    b.bankLocked = true → inHotspot (busAddr a) = true → (b.slot (slotOf (busAddr a))).owner = .ext k →
    s.calls.length ∉ s.reentries →
    (∀ i ∈ Instr.read a :: mPeekForms a,
      exec i s = .next { s with reply := .byte (Config.extPeek k (historyOf k s.calls) (busAddr a)),
                                calls := s.calls ++ [{ dev := k, access := .peek (busAddr a) }] }) ∧
    (∀ i ∈ Instr.write a v :: mPokeForms a v,
      exec i s = .next { s with reply := .bool (Config.extPoke k (historyOf k s.calls) (busAddr a) v),
                                calls := s.calls ++ [{ dev := k, access := .poke (busAddr a) v }] })

/-- A READ, WRITE, M.PEEK or M.POKE of an address outside the hotspot region leaves the block as it was: only the result
differs, and the devices' calls only where a READ or WRITE reaches a page an external device owns, by that one call (R134,
95_test_vectors.md section 4). -/
def Obligations.AccessOutsideHotspotLeavesTheBlock : Prop :=
  ∀ (s t : State) (i : Instr) (a : Arg), busOperand i = some a → inHotspot (busAddr a) = false → exec i s = .next t →
    t = { s with reply := t.reply, calls := t.calls } ∧
    (t.calls = s.calls ∨ ∃ d k x, PageTable.get s.pt (pageOf (busAddr a)) = .mapped d ∧ d.owner = .ext k ∧
      ((i = .read a ∧ x = .peek (busAddr a)) ∨ ∃ v, i = .write a v ∧ x = .poke (busAddr a) v) ∧
      t.calls = s.calls ++ [{ dev := k, access := x }])

/-- R100, R101: READ and WRITE of a page that names the cartridge, wherever SETPAGE has put it, are the cartridge's own PEEK and
POKE of the 13-bit address: in a Fixed system the store byte and `false`, in a Multi system exactly what M.PEEK and M.POKE do
there, `NotInstalled` at a hotspot address before M.INSTALL included. -/
def Obligations.CartridgePageAccessIsItsPeekAndPoke : Prop :=
  ∀ (s : State) (a : Arg) (v : Byte) (d : Desc), PageTable.get s.pt (pageOf (busAddr a)) = .mapped d → d.owner = .cart →
    (s.cart = .fixed →
      exec (.read a) s = .next { s with reply := .byte (s.store.read ((busAddr a).toNat &&& (s.store.size - 1))) } ∧
      exec (.write a v) s = .next { s with reply := .bool false }) ∧
    (∀ b, s.cart = .multi b →
      (∀ i ∈ mPeekForms a, exec (.read a) s = exec i s) ∧ (∀ i ∈ mPokeForms a v, exec (.write a v) s = exec i s) ∧
      (inHotspot (busAddr a) = false →
        exec (.read a) s = .next { s with reply := .byte (s.store.read (b.bank * 4096 + (a.toNat &&& 0x0FFF))) } ∧
        exec (.write a v) s = .next { s with reply := .bool false }) ∧
      (inHotspot (busAddr a) = true → s.installed = false →
        exec (.read a) s = .refused .notInstalled ∧ exec (.write a v) s = .refused .notInstalled))

/-- R104: on a page the cartridge published with `direct = Some off`, a READ is free of side effects and gives
`store[off + (a & 0x3F)]`, in both variants. -/
def Obligations.DispatchedReadEqualsDirectRead : Prop :=
  ∀ (s : State) (a : Arg), s.Inv → s.Coherent → s.installed = true → a.getLsbD 12 = true →
    ∃ d off, PageTable.get s.pt (pageOf (busAddr a)) = .mapped d ∧ d.owner = .cart ∧ d.direct = some off ∧
      exec (.read a) s = .next { s with reply := .byte (s.store.read (off + (a.toNat &&& 0x3F))) }

/-- An external device that issues an operation of the block while a hotspot access is forwarded to it makes the run one the
model refuses, called directly or through a page the cartridge owns (R183, R203; log entry 9). -/
def Obligations.ReentrantForwardIsRefused : Prop :=
  ∀ (s : State) (b : Banks) (a : Arg) (v : Byte) (k : Nat), s.cart = .multi b → s.installed = true →
    inHotspot (busAddr a) = true → (b.slot (slotOf (busAddr a))).owner = .ext k → s.calls.length ∈ s.reentries →
    (∀ i ∈ mPeekForms a, exec i s = .refused .deviceReentered) ∧
    (∀ i ∈ mPokeForms a v, exec i s = .refused .deviceReentered) ∧
    (∀ d, PageTable.get s.pt (pageOf (busAddr a)) = .mapped d → d.owner = .cart →
      exec (.read a) s = .refused .deviceReentered ∧ exec (.write a v) s = .refused .deviceReentered)

/-- A captured slot naming the cartridge itself would forward without end (R198): the access faults. No invariant state is
one of these (StepNeverFaults). -/
def Obligations.SelfForwardIsEndless : Prop :=
  ∀ (s : State) (b : Banks) (a : Arg) (v : Byte), s.cart = .multi b → s.installed = true → inHotspot (busAddr a) = true →
    (b.slot (slotOf (busAddr a))).owner = .cart →
    (∀ i ∈ mPeekForms a, exec i s = .fault .endlessForward) ∧ (∀ i ∈ mPokeForms a v, exec i s = .fault .endlessForward)

/-! ### The Fixed cartridge -/

/-- R110: the clamped copy over the fill byte in a store of the least sufficient power of two, or `BadImage`. The first
CONSTRUCT leaves page table and diagnostics alone. -/
def Obligations.FixedConstructBuildsTheStore : Prop :=
  ∀ (s : State) (image : List Byte) (requestedSize : Nat),
    (image.length < min requestedSize 2048 → exec (.fConstruct image requestedSize) s = .refused .badImage) ∧
    (min requestedSize 2048 ≤ image.length → ∃ t, exec (.fConstruct image requestedSize) s = .next t ∧
      (64 ≤ t.store.size ∧ min requestedSize 2048 ≤ t.store.size ∧ (∃ k, t.store.size = 2 ^ k) ∧
        ∀ k, 64 ≤ 2 ^ k → min requestedSize 2048 ≤ 2 ^ k → t.store.size ≤ 2 ^ k) ∧
      (∀ j, j < min requestedSize 2048 → image[j]? = some (t.store.read j)) ∧
      (∀ j, min requestedSize 2048 ≤ j → j < t.store.size → t.store.read j = 0x02) ∧
      t.cart = .fixed ∧ t.tag = Config.tagFixed ∧ t.bankChanged = false ∧ t.installed = false ∧
      t.reply = .none ∧ t.calls = s.calls ∧ t.pending = s.pending ∧ t.reentries = s.reentries ∧
      (s.constructs = 0 → s.installed = false → t.pt = s.pt ∧ t.diag = s.diag))

/-- R113, R111: F.INSTALL publishes `{CART, RO, Some((p*64) & mask), same}` in pages 64 .. 127 and nothing else; a second one
is refused. That it looks at no hotspot page, so that it completes with those pages the cartridge's own too, is the model's
reading of R113 against R198 (log entry 13). -/
def Obligations.FixedInstallPublishesTheWindow : Prop :=
  ∀ s : State, s.cart = .fixed →
    (s.installed = true → exec .fInstall s = .refused .doubleInstall) ∧
    (s.installed = false → ∃ t, exec .fInstall s = .next t ∧
      (∀ p : PageIdx, PageTable.get t.pt p =
        if 64 ≤ p.toNat then
          .mapped { owner := .cart, cap := .ro, direct := some ((p.toNat * 64) &&& (s.store.size - 1)),
                    aux := some ((p.toNat * 64) &&& (s.store.size - 1)) }
        else PageTable.get s.pt p) ∧
      t = { s with pt := t.pt, installed := true, reply := .none })

/-- R112, R114, R117 to R120: the answers of a Fixed cartridge; none of them changes anything. -/
def Obligations.FixedAnswersChangeNothing : Prop :=
  ∀ (s : State) (a b : Arg) (v : Byte), s.cart = .fixed →
    exec (.fPeek a) s = .next { s with reply := .byte (s.store.read (a.toNat &&& (s.store.size - 1))) } ∧
    exec (.fPoke a v) s = .next { s with reply := .bool false } ∧
    exec (.fBank b) s = .next { s with reply := .bool false } ∧
    exec .fGetbank s = .next { s with reply := .number 0 } ∧
    exec .fBankcount s = .next { s with reply := .number 1 } ∧
    exec .fGetimage s = .next { s with reply := .image s.store s.store.size }

/-- R115: F.PATCH writes the one store byte `a & mask`, sets the flag and answers `true`; nothing else changes. -/
def Obligations.FixedPatchWritesOneByte : Prop :=
  ∀ (s : State) (a : Arg) (v : Byte), s.Inv → s.cart = .fixed →
    ∃ t, exec (.fPatch a v) s = .next t ∧
      t.store.read (a.toNat &&& (s.store.size - 1)) = v ∧
      (∀ j, j ≠ a.toNat &&& (s.store.size - 1) → t.store.read j = s.store.read j) ∧ t.store.size = s.store.size ∧
      t = { s with store := t.store, bankChanged := true, reply := .bool true }

/-- R116. -/
def Obligations.FixedResetOnlySetsTheFlag : Prop :=
  ∀ s : State, s.cart = .fixed → exec .fReset s = .next { s with bankChanged := true, reply := .none }

/-- R121, R144: the tag accessors answer the variant's tag, and the two tags differ (R14). -/
def Obligations.TagAccessorsAnswerTheVariantsTag : Prop :=
  Config.tagFixed ≠ Config.tagMulti ∧
  (∀ s : State, s.Inv → s.cart = .fixed → exec .fTag s = .next { s with reply := .text Config.tagFixed }) ∧
  (∀ (s : State) (b : Banks), s.Inv → s.cart = .multi b → exec .mTag s = .next { s with reply := .text Config.tagMulti })

/-! ### The Multi cartridge -/

/-- R130: the store is the image byte for byte and the top bank is active, or `BadImage`. `captured` is a free value (log
entry 6); the first CONSTRUCT leaves page table and diagnostics alone. -/
def Obligations.MultiConstructHoldsTheImage : Prop :=
  ∀ (s : State) (image : List Byte),
    (image.length = 0 ∨ image.length % 4096 ≠ 0 ∨ 65536 < image.length / 4096 →
      exec (.mConstruct image) s = .refused .badImage) ∧
    (image.length ≠ 0 → image.length % 4096 = 0 → image.length / 4096 ≤ 65536 →
      ∃ t b, exec (.mConstruct image) s = .next t ∧ t.cart = .multi b ∧ b.bankCount = image.length / 4096 ∧
        b.bank = b.bankCount - 1 ∧ b.bankLocked = false ∧ t.store.size = image.length ∧
        (∀ j, j < image.length → image[j]? = some (t.store.read j)) ∧
        t.tag = Config.tagMulti ∧ t.bankChanged = false ∧ t.installed = false ∧
        t.reply = .none ∧ t.calls = s.calls ∧ t.pending = s.pending ∧ t.reentries = s.reentries ∧
        (s.constructs = 0 → s.installed = false → t.pt = s.pt ∧ t.diag = s.diag))

/-- R200 as log entry 10 reads it: a CONSTRUCT that replaces a cartridge is a new power-on of the whole block, so every page
is Unmapped and `diag` is empty. -/
def Obligations.ReplacingTheCartridgeIsANewPowerOn : Prop :=
  ∀ (s t : State) (i : Instr), isConstruct i = true → (s.constructs ≠ 0 ∨ s.installed = true) → exec i s = .next t →
    (∀ p, PageTable.get t.pt p = .unmapped) ∧ t.diag = []

/-- R137: M.INSTALL checks slot by slot, captures the 32 hotspot entries, publishes `HotDesc` (R131) in their place and
selects the startup bank; refused when already installed, or at the first hotspot page that is Unmapped or the cartridge's. -/
def Obligations.MultiInstallCapturesAndTakesOver : Prop :=
  ∀ (s : State) (b : Banks), s.cart = .multi b →
    (s.installed = true → exec .mInstall s = .refused .doubleInstall) ∧
    (s.installed = false → ∀ d : Slot → Desc,
      (∀ h, PageTable.get s.pt (hotspotPage h) = .mapped (d h) ∧ (d h).owner ≠ .cart) →
      ∃ t c, exec .mInstall s = .next t ∧ t.cart = .multi c ∧ (∀ h, c.slot h = d h) ∧ c.bank = b.bankCount - 1 ∧
        c.bankCount = b.bankCount ∧ c.bankLocked = b.bankLocked ∧ t.bankChanged = true ∧
        (∀ p : PageIdx, PageTable.get t.pt p =
          if 64 ≤ p.toNat then .mapped (windowDesc (b.bankCount - 1) p)
          else if 32 ≤ p.toNat then .mapped { owner := .cart, cap := .rw, direct := none, aux := none }
          else PageTable.get s.pt p) ∧
        t = { s with cart := t.cart, pt := t.pt, bankChanged := true, installed := true, reply := .none }) ∧
    (s.installed = false → ∀ h : Slot,
      (∀ g : Slot, g.toNat < h.toNat → ∃ d, PageTable.get s.pt (hotspotPage g) = .mapped d ∧ d.owner ≠ .cart) →
      (PageTable.get s.pt (hotspotPage h) = .unmapped → exec .mInstall s = .refused .hotspotUnmapped) ∧
      (∀ d, PageTable.get s.pt (hotspotPage h) = .mapped d → d.owner = .cart → exec .mInstall s = .refused .selfCapture))

/-- R138, R133: M.BANK. -/
def Obligations.MultiBankSelectsUnlessLocked : Prop :=
  ∀ (s : State) (b : Banks) (n : Arg), s.cart = .multi b →
    (s.installed = false → exec (.mBank n) s = .refused .notInstalled) ∧
    (s.installed = true → b.bankLocked = true → exec (.mBank n) s = .next { s with reply := .bool false }) ∧
    (s.installed = true → b.bankLocked = false → ∃ t, exec (.mBank n) s = .next t ∧
      BankSelected b (n.toNat % b.bankCount) s t ∧
      t = { s with cart := t.cart, pt := t.pt, bankChanged := true, reply := .bool true })

/-- R139: M.PATCH writes the one byte `bank * 4096 + (a & 0x0FFF)`, whatever the lock and whatever region `a` lies in. -/
def Obligations.MultiPatchWritesOneByteOfTheBank : Prop :=
  ∀ (s : State) (b : Banks) (a : Arg) (v : Byte), s.Inv → s.cart = .multi b →
    ∃ t, exec (.mPatch a v) s = .next t ∧
      t.store.read (b.bank * 4096 + (a.toNat &&& 0x0FFF)) = v ∧
      (∀ j, j ≠ b.bank * 4096 + (a.toNat &&& 0x0FFF) → t.store.read j = s.store.read j) ∧ t.store.size = s.store.size ∧
      t = { s with store := t.store, bankChanged := true, reply := .bool true }

/-- R140, R192: M.RESET selects the startup bank, locked or not. -/
def Obligations.MultiResetRestoresTheStartupBank : Prop :=
  ∀ (s : State) (b : Banks), s.cart = .multi b →
    (s.installed = false → exec .mReset s = .refused .notInstalled) ∧
    (s.installed = true → ∃ t, exec .mReset s = .next t ∧ BankSelected b (b.bankCount - 1) s t ∧
      t = { s with cart := t.cart, pt := t.pt, bankChanged := true, reply := .none })

/-- R141 to R143: the answers of a Multi cartridge; none of them changes anything. -/
def Obligations.MultiAnswersChangeNothing : Prop :=
  ∀ (s : State) (b : Banks), s.cart = .multi b →
    exec .mGetbank s = .next { s with reply := .number b.bank } ∧
    exec .mBankcount s = .next { s with reply := .number b.bankCount } ∧
    exec .mGetimage s = .next { s with reply := .image s.store s.store.size }

/-- R135: M.PEEK called directly, in every region. That a device's answer is a free value of its calls, and that a list says
when a device re-enters, is the model's form for R183 (log entries 5 and 9). -/
def Obligations.MultiPeekReadsOrForwards : Prop :=
  ∀ (s : State) (b : Banks) (a : Arg), s.Inv → s.cart = .multi b → ∀ i ∈ mPeekForms a,
    (inHotspot (busAddr a) = false →
      exec i s = .next { s with reply := .byte (s.store.read (b.bank * 4096 + (a.toNat &&& 0x0FFF))) }) ∧
    (inHotspot (busAddr a) = true → s.installed = false → exec i s = .refused .notInstalled) ∧
    (inHotspot (busAddr a) = true → s.installed = true → s.calls.length ∉ s.reentries →
      ∀ k, (b.slot (slotOf (busAddr a))).owner = .ext k →
      ∃ t, exec i s = .next t ∧
        (b.bankLocked = true → t.cart = s.cart ∧ t.pt = s.pt ∧ t.bankChanged = s.bankChanged) ∧
        (b.bankLocked = false → BankSelected b ((busAddr a).toNat &&& (b.bankCount - 1)) s t) ∧
        t.reply = .byte (Config.extPeek k (historyOf k s.calls) (busAddr a)) ∧
        t.calls = s.calls ++ [{ dev := k, access := .peek (busAddr a) }] ∧
        t = { s with cart := t.cart, pt := t.pt, bankChanged := t.bankChanged, reply := t.reply, calls := t.calls })

/-- R136: M.POKE called directly, in every region. That a device's answer is a free value of its calls, and that a list says
when a device re-enters, is the model's form for R183 (log entries 5 and 9). -/
def Obligations.MultiPokeForwardsOrDoesNothing : Prop :=
  ∀ (s : State) (b : Banks) (a : Arg) (v : Byte), s.Inv → s.cart = .multi b → ∀ i ∈ mPokeForms a v,
    (inHotspot (busAddr a) = false → exec i s = .next { s with reply := .bool false }) ∧
    (inHotspot (busAddr a) = true → s.installed = false → exec i s = .refused .notInstalled) ∧
    (inHotspot (busAddr a) = true → s.installed = true → s.calls.length ∉ s.reentries →
      ∀ k, (b.slot (slotOf (busAddr a))).owner = .ext k →
      ∃ t, exec i s = .next t ∧
        (b.bankLocked = true → t.cart = s.cart ∧ t.pt = s.pt ∧ t.bankChanged = s.bankChanged) ∧
        (b.bankLocked = false → BankSelected b ((busAddr a).toNat &&& (b.bankCount - 1)) s t) ∧
        t.reply = .bool (Config.extPoke k (historyOf k s.calls) (busAddr a) v) ∧
        t.calls = s.calls ++ [{ dev := k, access := .poke (busAddr a) v }] ∧
        t = { s with cart := t.cart, pt := t.pt, bankChanged := t.bankChanged, reply := t.reply, calls := t.calls })

/-- A patch is seen in the bank it was made in and in no other (R139, 95_test_vectors.md X9): patch, select bank `n`, peek. -/
def Obligations.PatchIsSeenOnlyInItsBank : Prop :=
  ∀ (s t u w : State) (b : Banks) (a a' n : Arg) (v : Byte), s.Inv → s.cart = .multi b →
    exec (.mPatch a v) s = .next t → exec (.mBank n) t = .next u → u.reply = .bool true →
    inHotspot (busAddr a') = false → exec (.mPeekWindow a') u = .next w →
    w.reply = .byte (if n.toNat % b.bankCount = b.bank ∧ a &&& 0x0FFF#16 = a' &&& 0x0FFF#16 then v
      else s.store.read (n.toNat % b.bankCount * 4096 + (a'.toNat &&& 0x0FFF)))

/-! ### Persistence -/

/-- R153: F.SAVE appends the tag, or reports the put's failure with one diagnostic line. That a failed put leaves the items as
they were is the model's reading of R150 (log entry 11). -/
def Obligations.FixedSaveWritesTheTag : Prop :=
  ∀ (s : State) (items : List StreamItem) (later : List Bool) (g : List GetTurn), s.cart = .fixed →
    (∀ f ∈ [[], false :: later],
      exec (.fSave { items := items, putFails := f, gets := g }) s =
        .next { s with reply := .streamed true { items := items ++ [.str s.tag], putFails := f.tail, gets := g } }) ∧
    exec (.fSave { items := items, putFails := true :: later, gets := g }) s =
      .next { s with reply := .streamed false { items := items, putFails := later, gets := g }, diag := s.diag ++ [.save] }

/-- R154: F.LOAD answers whether the first item is this cartridge's tag; a stream failure, and not a mismatch, leaves one
diagnostic line. Whether a get of a string is served or signals, and whether the item is then gone, is the stream's (U4); the
form the model gives that parameter is its own (log entry 11). -/
def Obligations.FixedLoadComparesTheTag : Prop :=
  ∀ (s : State) (st : Sys2Proof.Stream), s.cart = .fixed →
    (∀ (x : String) (rest : List StreamItem), st.items = .str x :: rest →
      (st.gets[0]? ∈ [none, some .serves] →
        exec (.fLoad st) s =
          .next { s with reply := .streamed (decide (x = s.tag)) { st with items := rest, gets := st.gets.drop 1 } }) ∧
      (∀ r, st.gets[0]? = some (.signals r) →
        exec (.fLoad st) s =
          .next { s with
            reply := .streamed false { st with items := if r then rest else .str x :: rest, gets := st.gets.drop 1 },
            diag := s.diag ++ [.load] })) ∧
    (∀ (n : BitVec 16) (rest : List StreamItem), st.items = .short n :: rest →
      exec (.fLoad st) s =
        .next { s with reply := .streamed false { st with items := rest, gets := st.gets.drop 1 },
                       diag := s.diag ++ [.load] }) ∧
    (st.items = [] →
      exec (.fLoad st) s =
        .next { s with reply := .streamed false { st with gets := st.gets.drop 1 }, diag := s.diag ++ [.load] })

/-- R155: M.SAVE appends the tag and the 16-bit bank index; a failed put ends it with one diagnostic line. That a failed put
appends nothing, the first one included, is the model's reading of R150 (log entry 11). -/
def Obligations.MultiSaveWritesTagAndBank : Prop :=
  ∀ (s : State) (b : Banks) (items : List StreamItem) (later : List Bool) (g : List GetTurn), s.Inv → s.cart = .multi b →
    (∃ n : BitVec 16, n.toNat = b.bank ∧ ∀ f ∈ [[], [false], false :: false :: later],
      exec (.mSave { items := items, putFails := f, gets := g }) s =
        .next { s with
          reply := .streamed true { items := items ++ [.str s.tag, .short n], putFails := f.drop 2, gets := g } }) ∧
    exec (.mSave { items := items, putFails := true :: later, gets := g }) s =
      .next { s with reply := .streamed false { items := items, putFails := later, gets := g },
                     diag := s.diag ++ [.save] } ∧
    exec (.mSave { items := items, putFails := false :: true :: later, gets := g }) s =
      .next { s with reply := .streamed false { items := items ++ [.str s.tag], putFails := later, gets := g },
                     diag := s.diag ++ [.save] }

/-- R156, R178: M.LOAD, in the order tag read, tag compare, bank read, select; every failure leaves the cartridge as it was,
and the lock is not consulted. When a get of a good item signals is the stream's (U4); the form the model gives that parameter
is its own (log entry 11). -/
def Obligations.MultiLoadRestoresTheBank : Prop :=
  ∀ (s : State) (b : Banks) (st : Sys2Proof.Stream), s.cart = .multi b →
    (s.installed = false → exec (.mLoad st) s = .refused .notInstalled) ∧
    (s.installed = true →
      (∀ (n : BitVec 16) (rest : List StreamItem), st.items = .str s.tag :: .short n :: rest →
        st.gets[0]? ∈ [none, some .serves] → st.gets[1]? ∈ [none, some .serves] →
        ∃ t, exec (.mLoad st) s = .next t ∧ BankSelected b (n.toNat % b.bankCount) s t ∧
          t = { s with cart := t.cart, pt := t.pt, bankChanged := true,
                       reply := .streamed true { st with items := rest, gets := st.gets.drop 2 } }) ∧
      (∀ (x : String) (rest : List StreamItem), st.items = .str x :: rest → x ≠ s.tag →
        st.gets[0]? ∈ [none, some .serves] →
        exec (.mLoad st) s =
          .next { s with reply := .streamed false { st with items := rest, gets := st.gets.drop 1 } }) ∧
      (st.items = [] →
        exec (.mLoad st) s =
          .next { s with reply := .streamed false { st with gets := st.gets.drop 1 }, diag := s.diag ++ [.load] }) ∧
      (∀ (n : BitVec 16) (rest : List StreamItem), st.items = .short n :: rest →
        exec (.mLoad st) s =
          .next { s with reply := .streamed false { st with items := rest, gets := st.gets.drop 1 },
                         diag := s.diag ++ [.load] }) ∧
      (∀ (x : String) (rest : List StreamItem) (r : Bool), st.items = .str x :: rest → st.gets[0]? = some (.signals r) →
        exec (.mLoad st) s =
          .next { s with
            reply := .streamed false { st with items := if r then rest else .str x :: rest, gets := st.gets.drop 1 },
            diag := s.diag ++ [.load] }) ∧
      (st.items = [.str s.tag] → st.gets[0]? ∈ [none, some .serves] →
        exec (.mLoad st) s =
          .next { s with reply := .streamed false { st with items := [], gets := st.gets.drop 2 },
                         diag := s.diag ++ [.load] }) ∧
      (∀ (x : String) (rest : List StreamItem), st.items = .str s.tag :: .str x :: rest →
        st.gets[0]? ∈ [none, some .serves] →
        exec (.mLoad st) s =
          .next { s with reply := .streamed false { st with items := rest, gets := st.gets.drop 2 },
                         diag := s.diag ++ [.load] }) ∧
      (∀ (n : BitVec 16) (rest : List StreamItem) (r : Bool), st.items = .str s.tag :: .short n :: rest →
        st.gets[0]? ∈ [none, some .serves] → st.gets[1]? = some (.signals r) →
        exec (.mLoad st) s =
          .next { s with
            reply := .streamed false { st with items := if r then rest else .short n :: rest, gets := st.gets.drop 2 },
            diag := s.diag ++ [.load] }))

/-- R158: a save on an empty reference stream, loaded into an installed cartridge of the same bank count, restores the bank;
where the stores are equal every non-hotspot peek is then equal. For Fixed the load succeeds and changes nothing, so its peeks
stay equal too. A stream whose first item is another tag makes either load answer `false`. -/
def Obligations.SaveThenLoadRoundTrips : Prop :=
  (∀ (x y x' : State) (b c : Banks) (st : Sys2Proof.Stream), x.Inv → y.Inv → x.cart = .multi b → y.cart = .multi c →
    y.installed = true → c.bankCount = b.bankCount →
    exec (.mSave { items := [], putFails := [], gets := [] }) x = .next x' → x'.reply = .streamed true st →
    ∃ y' c', exec (.mLoad st) y = .next y' ∧ y'.reply = .streamed true { items := [], putFails := [], gets := [] } ∧
      y'.cart = .multi c' ∧ c'.bank = b.bank ∧ y'.store = y.store ∧
      (y.store = x.store → ∀ (a : Arg), inHotspot (busAddr a) = false → ∀ i ∈ mPeekForms a,
        ∃ p q, exec i x = .next p ∧ exec i y' = .next q ∧ p.reply = q.reply)) ∧
  (∀ (x y x' : State) (st : Sys2Proof.Stream), x.Inv → y.Inv → x.cart = .fixed → y.cart = .fixed →
    exec (.fSave { items := [], putFails := [], gets := [] }) x = .next x' → x'.reply = .streamed true st →
    exec (.fLoad st) y = .next { y with reply := .streamed true { items := [], putFails := [], gets := [] } }) ∧
  (∀ (y : State) (st : Sys2Proof.Stream) (x : String) (rest : List StreamItem), st.items = .str x :: rest → x ≠ y.tag →
    (y.cart = .fixed → ∃ t st', exec (.fLoad st) y = .next t ∧ t.reply = .streamed false st' ∧
      (st.gets = [] → st' = { st with items := rest })) ∧
    (∀ b, y.cart = .multi b → y.installed = true →
      ∃ t st', exec (.mLoad st) y = .next t ∧ t.reply = .streamed false st' ∧
        (st.gets = [] → st' = { st with items := rest })))

/-- R179: an operation that reports a failure leaves page table and cartridge as it found them; at most one diagnostic line
is left. -/
def Obligations.ReportedFailuresChangeNothing : Prop :=
  ∀ (s t : State) (i : Instr), exec i s = .next t →
    (∀ st, t.reply = .streamed false st →
      t = { s with reply := t.reply, diag := t.diag } ∧ (t.diag = s.diag ∨ t.diag = s.diag ++ [.save] ∨ t.diag = s.diag ++ [.load])) ∧
    (∀ n, i = .mBank n → t.reply = .bool false → t = { s with reply := .bool false })

/-! ### Debug controls and whole-machine rules -/

/-- R160, R161; a Fixed cartridge has no such operation. -/
def Obligations.LockControlsChangeOnlyTheLock : Prop :=
  (∀ (s : State) (b : Banks), s.cart = .multi b →
    exec .lockbank s = .next { s with cart := .multi { b with bankLocked := true }, reply := .none } ∧
    exec .unlockbank s = .next { s with cart := .multi { b with bankLocked := false }, reply := .none }) ∧
  (∀ s : State, s.cart = .fixed →
    exec .lockbank s = .refused .noSuchOperation ∧ exec .unlockbank s = .refused .noSuchOperation)

/-- R162, R163: reading the flag does not clear it; the consumer's clear does, and nothing else changes. -/
def Obligations.FlagIsReadAndCleared : Prop :=
  ∀ s : State,
    exec .bankchanged s = .next { s with reply := .bool s.bankChanged } ∧
    exec .clearbankchanged s = .next { s with bankChanged := false, reply := .none }

/-- R31: the flag falls only by CLEARBANKCHANGED or a power-on, and rises only by a patch, a reset, a bank select, M.INSTALL, a
successful M.LOAD or an unlocked hotspot access. -/
def Obligations.FlagChangesOnlyByItsRules : Prop :=
  ∀ (s t : State) (i : Instr), exec i s = .next t →
    (s.bankChanged = true → t.bankChanged = false → i = .clearbankchanged ∨ isConstruct i = true) ∧
    (s.bankChanged = false → t.bankChanged = true →
      (∃ a v, i = .fPatch a v ∨ i = .mPatch a v) ∨ i = .fReset ∨ i = .mReset ∨ i = .mInstall ∨
      (∃ n, i = .mBank n ∧ t.reply = .bool true) ∨ (∃ st st', i = .mLoad st ∧ t.reply = .streamed true st') ∨
      (isHotspotAccess i ∧ ∃ b, s.cart = .multi b ∧ b.bankLocked = false))

/-- R29, R165: the active bank of a Multi cartridge changes only by a hotspot access or M.BANK while unlocked, or by M.RESET,
M.LOAD, M.INSTALL; the lock only by LOCKBANK and UNLOCKBANK; `bankCount` by nothing but a new power-on; `captured` only by
M.INSTALL. -/
def Obligations.BankStateChangesOnlyByItsRules : Prop :=
  ∀ (s t : State) (i : Instr) (b c : Banks), exec i s = .next t → isConstruct i = false → s.cart = .multi b → t.cart = .multi c →
    (c.bank ≠ b.bank → ((isHotspotAccess i ∨ ∃ n, i = .mBank n) ∧ b.bankLocked = false) ∨ i = .mReset ∨ i = .mInstall ∨
      ∃ st, i = .mLoad st) ∧
    (c.bankLocked ≠ b.bankLocked → i = .lockbank ∨ i = .unlockbank) ∧
    c.bankCount = b.bankCount ∧
    (c.captured ≠ b.captured → i = .mInstall)

/-- R24 to R28, R33: only PATCH changes the store, nothing changes its size, the variant or the tag, and `installed` is set
by INSTALL alone and never cleared, but by a new power-on. -/
def Obligations.StoreAndIdentityChangeOnlyByTheirRules : Prop :=
  ∀ (s t : State) (i : Instr), exec i s = .next t → isConstruct i = false →
    (t.store ≠ s.store → ∃ a v, i = .fPatch a v ∨ i = .mPatch a v) ∧ t.store.size = s.store.size ∧
    t.variant = s.variant ∧ t.tag = s.tag ∧ (s.installed = true → t.installed = true) ∧
    (s.installed = false → t.installed = true → i = .fInstall ∨ i = .mInstall)

/-- R20, R37: but for a new power-on, a page of 0 .. 31 changes only by SETPAGE of that page, a hotspot page also by M.INSTALL,
and a window page also by INSTALL, M.BANK, M.RESET, M.LOAD or a hotspot access. -/
def Obligations.PagesChangeOnlyByTheirRules : Prop :=
  ∀ (s t : State) (i : Instr) (p : PageIdx), exec i s = .next t → isConstruct i = false →
    PageTable.get t.pt p ≠ PageTable.get s.pt p →
    (∃ q d, i = .setpage q d ∧ q.toNat = p.toNat) ∨ (32 ≤ p.toNat ∧ i = .mInstall) ∨
    (64 ≤ p.toNat ∧ (i = .fInstall ∨ i = .mReset ∨ (∃ n, i = .mBank n) ∨ (∃ st, i = .mLoad st) ∨ isHotspotAccess i))

/-- R34, R35: an operation calls at most one external device, once, and only READ, WRITE, M.PEEK and M.POKE do; only SAVE and
LOAD append to `diag`; nothing but a step takes from the queue. -/
def Obligations.DevicesAndDiagnosticsChangeOnlyByTheirRules : Prop :=
  ∀ (s t : State) (i : Instr), exec i s = .next t →
    (t.calls = s.calls ∨ ∃ c, t.calls = s.calls ++ [c] ∧ (busOperand i).isSome = true) ∧
    (isConstruct i = false → t.diag = s.diag ∨
      ((∃ st, i = .fSave st ∨ i = .mSave st) ∧ t.diag = s.diag ++ [.save]) ∨
      ((∃ st, i = .fLoad st ∨ i = .mLoad st) ∧ t.diag = s.diag ++ [.load])) ∧
    t.pending = s.pending ∧ t.reentries = s.reentries

/-! ### Boot -/

/-- R195: from reset, POWERON of a Multi system (R97) runs to its end and leaves the boot state. -/
def Obligations.MultiPowerOnReachesTheBootState : Prop :=
  ∀ (k : Nat) (image : List Byte), image.length ≠ 0 → image.length % 4096 = 0 → image.length / 4096 ≤ 65536 →
    ∃ t b, runSteps (powerOnMulti k image).length (issue (powerOnMulti k image) State.reset) = .next t ∧
      t.cart = .multi b ∧ b.bankCount = image.length / 4096 ∧ b.bank = b.bankCount - 1 ∧ b.bankLocked = false ∧
      (∀ h, b.slot h = { owner := .ext k, cap := .rw, direct := none, aux := none }) ∧
      t.bankChanged = true ∧ t.installed = true ∧ t.pending = [] ∧ t.diag = [] ∧ t.calls = [] ∧
      t.store.size = image.length ∧ (∀ j, j < image.length → image[j]? = some (t.store.read j)) ∧
      (∀ p : PageIdx, PageTable.get t.pt p =
        if 64 ≤ p.toNat then .mapped (windowDesc b.bank p)
        else if 32 ≤ p.toNat then .mapped { owner := .cart, cap := .rw, direct := none, aux := none }
        else .mapped { owner := .ext k, cap := .rw, direct := none, aux := none })

/-- R195: from reset, POWERON of a Fixed system runs to its end and leaves the boot state, the store as constructed: the least
sufficient power of two, the image bytes, and the fill byte behind them (R110). -/
def Obligations.FixedPowerOnReachesTheBootState : Prop :=
  ∀ (k requestedSize : Nat) (image : List Byte), min requestedSize 2048 ≤ image.length →
    ∃ t, runSteps (powerOnFixed k image requestedSize).length
        (issue (powerOnFixed k image requestedSize) State.reset) = .next t ∧
      t.cart = .fixed ∧ t.tag = Config.tagFixed ∧ t.bankChanged = true ∧ t.installed = true ∧ t.pending = [] ∧
      t.diag = [] ∧ t.calls = [] ∧
      (64 ≤ t.store.size ∧ min requestedSize 2048 ≤ t.store.size ∧ (∃ j, t.store.size = 2 ^ j) ∧
        ∀ j, 64 ≤ 2 ^ j → min requestedSize 2048 ≤ 2 ^ j → t.store.size ≤ 2 ^ j) ∧
      (∀ j, j < min requestedSize 2048 → image[j]? = some (t.store.read j)) ∧
      (∀ j, min requestedSize 2048 ≤ j → j < t.store.size → t.store.read j = 0x02) ∧
      (∀ p : PageIdx, PageTable.get t.pt p =
        if 64 ≤ p.toNat then
          .mapped { owner := .cart, cap := .ro, direct := some ((p.toNat * 64) &&& (t.store.size - 1)),
                    aux := some ((p.toNat * 64) &&& (t.store.size - 1)) }
        else .mapped { owner := .ext k, cap := .rw, direct := none, aux := none })

/-- R86, R97: with a power of two of at most 2048 banks, `SWITCH b` selects exactly bank `b`. -/
def Obligations.SwitchSelectsTheNamedBank : Prop :=
  ∀ (s : State) (b : Banks) (j n : Nat), s.Inv → s.Coherent → s.cart = .multi b → s.installed = true → b.bankLocked = false →
    s.calls.length ∉ s.reentries → b.bankCount = 2 ^ j → j ≤ 11 → n < b.bankCount →
    ∃ t, exec (switchTo n) s = .next t ∧ t.cart = .multi { b with bank := n }
end

