-- ==== Sys2Proof/Laws/State.lean ====
section
/-! SUPPORT. One lemma per field per named update of the state, so that later proofs never unfold an update. -/

namespace Sys2Proof.Machine

@[simp] theorem State.answer_pt (s : State) (r : Reply) : (s.answer r).pt = s.pt := rfl
@[simp] theorem State.answer_cart (s : State) (r : Reply) : (s.answer r).cart = s.cart := rfl
@[simp] theorem State.answer_tag (s : State) (r : Reply) : (s.answer r).tag = s.tag := rfl
@[simp] theorem State.answer_store (s : State) (r : Reply) : (s.answer r).store = s.store := rfl
@[simp] theorem State.answer_bankChanged (s : State) (r : Reply) : (s.answer r).bankChanged = s.bankChanged := rfl
@[simp] theorem State.answer_installed (s : State) (r : Reply) : (s.answer r).installed = s.installed := rfl
@[simp] theorem State.answer_diag (s : State) (r : Reply) : (s.answer r).diag = s.diag := rfl
@[simp] theorem State.answer_calls (s : State) (r : Reply) : (s.answer r).calls = s.calls := rfl
@[simp] theorem State.answer_reply (s : State) (r : Reply) : (s.answer r).reply = r := rfl
@[simp] theorem State.answer_pending (s : State) (r : Reply) : (s.answer r).pending = s.pending := rfl
@[simp] theorem State.answer_reentries (s : State) (r : Reply) : (s.answer r).reentries = s.reentries := rfl
@[simp] theorem State.answer_constructs (s : State) (r : Reply) : (s.answer r).constructs = s.constructs := rfl

@[simp] theorem State.raiseBankChanged_pt (s : State) : (s.raiseBankChanged).pt = s.pt := rfl
@[simp] theorem State.raiseBankChanged_cart (s : State) : (s.raiseBankChanged).cart = s.cart := rfl
@[simp] theorem State.raiseBankChanged_tag (s : State) : (s.raiseBankChanged).tag = s.tag := rfl
@[simp] theorem State.raiseBankChanged_store (s : State) : (s.raiseBankChanged).store = s.store := rfl
@[simp] theorem State.raiseBankChanged_bankChanged (s : State) : (s.raiseBankChanged).bankChanged = true := rfl
@[simp] theorem State.raiseBankChanged_installed (s : State) : (s.raiseBankChanged).installed = s.installed := rfl
@[simp] theorem State.raiseBankChanged_diag (s : State) : (s.raiseBankChanged).diag = s.diag := rfl
@[simp] theorem State.raiseBankChanged_calls (s : State) : (s.raiseBankChanged).calls = s.calls := rfl
@[simp] theorem State.raiseBankChanged_reply (s : State) : (s.raiseBankChanged).reply = s.reply := rfl
@[simp] theorem State.raiseBankChanged_pending (s : State) : (s.raiseBankChanged).pending = s.pending := rfl
@[simp] theorem State.raiseBankChanged_reentries (s : State) : (s.raiseBankChanged).reentries = s.reentries := rfl
@[simp] theorem State.raiseBankChanged_constructs (s : State) : (s.raiseBankChanged).constructs = s.constructs := rfl

@[simp] theorem State.dropBankChanged_pt (s : State) : (s.dropBankChanged).pt = s.pt := rfl
@[simp] theorem State.dropBankChanged_cart (s : State) : (s.dropBankChanged).cart = s.cart := rfl
@[simp] theorem State.dropBankChanged_tag (s : State) : (s.dropBankChanged).tag = s.tag := rfl
@[simp] theorem State.dropBankChanged_store (s : State) : (s.dropBankChanged).store = s.store := rfl
@[simp] theorem State.dropBankChanged_bankChanged (s : State) : (s.dropBankChanged).bankChanged = false := rfl
@[simp] theorem State.dropBankChanged_installed (s : State) : (s.dropBankChanged).installed = s.installed := rfl
@[simp] theorem State.dropBankChanged_diag (s : State) : (s.dropBankChanged).diag = s.diag := rfl
@[simp] theorem State.dropBankChanged_calls (s : State) : (s.dropBankChanged).calls = s.calls := rfl
@[simp] theorem State.dropBankChanged_reply (s : State) : (s.dropBankChanged).reply = s.reply := rfl
@[simp] theorem State.dropBankChanged_pending (s : State) : (s.dropBankChanged).pending = s.pending := rfl
@[simp] theorem State.dropBankChanged_reentries (s : State) : (s.dropBankChanged).reentries = s.reentries := rfl
@[simp] theorem State.dropBankChanged_constructs (s : State) : (s.dropBankChanged).constructs = s.constructs := rfl

@[simp] theorem State.called_pt (s : State) (k : Nat) (x : DevAccess) : (s.called k x).pt = s.pt := rfl
@[simp] theorem State.called_cart (s : State) (k : Nat) (x : DevAccess) : (s.called k x).cart = s.cart := rfl
@[simp] theorem State.called_tag (s : State) (k : Nat) (x : DevAccess) : (s.called k x).tag = s.tag := rfl
@[simp] theorem State.called_store (s : State) (k : Nat) (x : DevAccess) : (s.called k x).store = s.store := rfl
@[simp] theorem State.called_bankChanged (s : State) (k : Nat) (x : DevAccess) : (s.called k x).bankChanged = s.bankChanged := rfl
@[simp] theorem State.called_installed (s : State) (k : Nat) (x : DevAccess) : (s.called k x).installed = s.installed := rfl
@[simp] theorem State.called_diag (s : State) (k : Nat) (x : DevAccess) : (s.called k x).diag = s.diag := rfl
@[simp] theorem State.called_calls (s : State) (k : Nat) (x : DevAccess) : (s.called k x).calls = s.calls ++ [{ dev := k, access := x }] := rfl
@[simp] theorem State.called_reply (s : State) (k : Nat) (x : DevAccess) : (s.called k x).reply = s.reply := rfl
@[simp] theorem State.called_pending (s : State) (k : Nat) (x : DevAccess) : (s.called k x).pending = s.pending := rfl
@[simp] theorem State.called_reentries (s : State) (k : Nat) (x : DevAccess) : (s.called k x).reentries = s.reentries := rfl
@[simp] theorem State.called_constructs (s : State) (k : Nat) (x : DevAccess) : (s.called k x).constructs = s.constructs := rfl

@[simp] theorem selectBank_pt (n : Nat) (b : Banks) (s : State) : (selectBank n b s).pt = PageTable.publish s.pt isWindowPage (multiWinDesc n) := by simp [selectBank]
@[simp] theorem selectBank_cart (n : Nat) (b : Banks) (s : State) : (selectBank n b s).cart = .multi { b with bank := n } := by simp [selectBank]
@[simp] theorem selectBank_tag (n : Nat) (b : Banks) (s : State) : (selectBank n b s).tag = s.tag := by simp [selectBank]
@[simp] theorem selectBank_store (n : Nat) (b : Banks) (s : State) : (selectBank n b s).store = s.store := by simp [selectBank]
@[simp] theorem selectBank_bankChanged (n : Nat) (b : Banks) (s : State) : (selectBank n b s).bankChanged = true := by simp [selectBank]
@[simp] theorem selectBank_installed (n : Nat) (b : Banks) (s : State) : (selectBank n b s).installed = s.installed := by simp [selectBank]
@[simp] theorem selectBank_diag (n : Nat) (b : Banks) (s : State) : (selectBank n b s).diag = s.diag := by simp [selectBank]
@[simp] theorem selectBank_calls (n : Nat) (b : Banks) (s : State) : (selectBank n b s).calls = s.calls := by simp [selectBank]
@[simp] theorem selectBank_reply (n : Nat) (b : Banks) (s : State) : (selectBank n b s).reply = s.reply := by simp [selectBank]
@[simp] theorem selectBank_pending (n : Nat) (b : Banks) (s : State) : (selectBank n b s).pending = s.pending := by simp [selectBank]
@[simp] theorem selectBank_reentries (n : Nat) (b : Banks) (s : State) : (selectBank n b s).reentries = s.reentries := by simp [selectBank]
@[simp] theorem selectBank_constructs (n : Nat) (b : Banks) (s : State) : (selectBank n b s).constructs = s.constructs := by simp [selectBank]

@[simp] theorem patchAt_pt (i : Nat) (v : Byte) (s : State) : (patchAt i v s).pt = s.pt := by simp [patchAt]
@[simp] theorem patchAt_cart (i : Nat) (v : Byte) (s : State) : (patchAt i v s).cart = s.cart := by simp [patchAt]
@[simp] theorem patchAt_tag (i : Nat) (v : Byte) (s : State) : (patchAt i v s).tag = s.tag := by simp [patchAt]
@[simp] theorem patchAt_store (i : Nat) (v : Byte) (s : State) : (patchAt i v s).store = s.store.write i v := by simp [patchAt]
@[simp] theorem patchAt_bankChanged (i : Nat) (v : Byte) (s : State) : (patchAt i v s).bankChanged = true := by simp [patchAt]
@[simp] theorem patchAt_installed (i : Nat) (v : Byte) (s : State) : (patchAt i v s).installed = s.installed := by simp [patchAt]
@[simp] theorem patchAt_diag (i : Nat) (v : Byte) (s : State) : (patchAt i v s).diag = s.diag := by simp [patchAt]
@[simp] theorem patchAt_calls (i : Nat) (v : Byte) (s : State) : (patchAt i v s).calls = s.calls := by simp [patchAt]
@[simp] theorem patchAt_reply (i : Nat) (v : Byte) (s : State) : (patchAt i v s).reply = .bool true := by simp [patchAt]
@[simp] theorem patchAt_pending (i : Nat) (v : Byte) (s : State) : (patchAt i v s).pending = s.pending := by simp [patchAt]
@[simp] theorem patchAt_reentries (i : Nat) (v : Byte) (s : State) : (patchAt i v s).reentries = s.reentries := by simp [patchAt]
@[simp] theorem patchAt_constructs (i : Nat) (v : Byte) (s : State) : (patchAt i v s).constructs = s.constructs := by simp [patchAt]

@[simp] theorem streamFailed_pt (line : DiagLine) (after : Stream) (s : State) : (streamFailed line after s).pt = s.pt := rfl
@[simp] theorem streamFailed_cart (line : DiagLine) (after : Stream) (s : State) : (streamFailed line after s).cart = s.cart := rfl
@[simp] theorem streamFailed_tag (line : DiagLine) (after : Stream) (s : State) : (streamFailed line after s).tag = s.tag := rfl
@[simp] theorem streamFailed_store (line : DiagLine) (after : Stream) (s : State) : (streamFailed line after s).store = s.store := rfl
@[simp] theorem streamFailed_bankChanged (line : DiagLine) (after : Stream) (s : State) : (streamFailed line after s).bankChanged = s.bankChanged := rfl
@[simp] theorem streamFailed_installed (line : DiagLine) (after : Stream) (s : State) : (streamFailed line after s).installed = s.installed := rfl
@[simp] theorem streamFailed_diag (line : DiagLine) (after : Stream) (s : State) : (streamFailed line after s).diag = s.diag ++ [line] := rfl
@[simp] theorem streamFailed_calls (line : DiagLine) (after : Stream) (s : State) : (streamFailed line after s).calls = s.calls := rfl
@[simp] theorem streamFailed_reply (line : DiagLine) (after : Stream) (s : State) : (streamFailed line after s).reply = .streamed false after := rfl
@[simp] theorem streamFailed_pending (line : DiagLine) (after : Stream) (s : State) : (streamFailed line after s).pending = s.pending := rfl
@[simp] theorem streamFailed_reentries (line : DiagLine) (after : Stream) (s : State) : (streamFailed line after s).reentries = s.reentries := rfl
@[simp] theorem streamFailed_constructs (line : DiagLine) (after : Stream) (s : State) : (streamFailed line after s).constructs = s.constructs := rfl

@[simp] theorem Store.write_size (st : Store) (i : Nat) (v : Byte) : (st.write i v).size = st.size := rfl
@[simp] theorem Store.write_cells (st : Store) (i : Nat) (v : Byte) : (st.write i v).cells = Memory.write st.cells i v := rfl
@[simp] theorem Store.ofBytes_size (n : Nat) (l : List Byte) : (Store.ofBytes n l).size = n := rfl
@[simp] theorem Store.ofBytes_cells (n : Nat) (l : List Byte) : (Store.ofBytes n l).cells = Memory.ofBytes 0 l := rfl
@[simp] theorem constructed_cart (cart : Cart) (tag : String) (store : Store) (s : State) :
    (constructed cart tag store s).cart = cart := rfl
@[simp] theorem constructed_tag (cart : Cart) (tag : String) (store : Store) (s : State) :
    (constructed cart tag store s).tag = tag := rfl
@[simp] theorem constructed_store (cart : Cart) (tag : String) (store : Store) (s : State) :
    (constructed cart tag store s).store = store := rfl
@[simp] theorem constructed_bankChanged (cart : Cart) (tag : String) (store : Store) (s : State) :
    (constructed cart tag store s).bankChanged = false := rfl
@[simp] theorem constructed_installed (cart : Cart) (tag : String) (store : Store) (s : State) :
    (constructed cart tag store s).installed = false := rfl
@[simp] theorem constructed_calls (cart : Cart) (tag : String) (store : Store) (s : State) :
    (constructed cart tag store s).calls = s.calls := by
  unfold constructed beforeConstruct; split <;> rfl
@[simp] theorem constructed_reply (cart : Cart) (tag : String) (store : Store) (s : State) :
    (constructed cart tag store s).reply = .none := rfl
@[simp] theorem constructed_pending (cart : Cart) (tag : String) (store : Store) (s : State) :
    (constructed cart tag store s).pending = s.pending := by
  unfold constructed beforeConstruct; split <;> rfl
@[simp] theorem constructed_reentries (cart : Cart) (tag : String) (store : Store) (s : State) :
    (constructed cart tag store s).reentries = s.reentries := by
  unfold constructed beforeConstruct; split <;> rfl
@[simp] theorem constructed_constructs (cart : Cart) (tag : String) (store : Store) (s : State) :
    (constructed cart tag store s).constructs = s.constructs + 1 := rfl

/-- The first CONSTRUCT leaves page table and diagnostics alone (R130). -/
theorem constructed_first {s : State} (h0 : s.constructs = 0) (hi : s.installed = false) (cart : Cart) (tag : String)
    (store : Store) :
    (constructed cart tag store s).pt = s.pt ∧ (constructed cart tag store s).diag = s.diag := by
  simp [constructed, beforeConstruct, h0, hi]

/-- A later CONSTRUCT is a new power-on of the whole block (R200). -/
theorem constructed_again {s : State} (h : s.constructs ≠ 0 ∨ s.installed = true) (cart : Cart) (tag : String)
    (store : Store) :
    (constructed cart tag store s).pt = PageTable.empty ∧ (constructed cart tag store s).diag = [] := by
  simp [constructed, beforeConstruct, h]

@[simp] theorem State.variant_of_fixed {s : State} (h : s.cart = .fixed) : s.variant = .fixed := by
  simp [State.variant, h, Cart.variant]

@[simp] theorem State.variant_of_multi {s : State} {b : Banks} (h : s.cart = .multi b) : s.variant = .multi := by
  simp [State.variant, h, Cart.variant]

theorem State.cart_of_variant_multi {s : State} (h : s.variant = .multi) : ∃ b, s.cart = .multi b := by
  cases hc : s.cart with
  | fixed => simp [State.variant, hc, Cart.variant] at h
  | multi b => exact ⟨b, rfl⟩

@[simp] theorem onFixed_fixed {α : Type} {s : State} (h : s.cart = .fixed) (k : Host.Outcome α Fault Refusal) :
    onFixed s k = k := by simp [onFixed, h]

@[simp] theorem onFixed_multi {α : Type} {s : State} {b : Banks} (h : s.cart = .multi b)
    (k : Host.Outcome α Fault Refusal) : onFixed s k = .refused .noSuchOperation := by simp [onFixed, h]

@[simp] theorem onMulti_multi {α : Type} {s : State} {b : Banks} (h : s.cart = .multi b)
    (k : Banks → Host.Outcome α Fault Refusal) : onMulti s k = k b := by simp [onMulti, h]

@[simp] theorem onMulti_fixed {α : Type} {s : State} (h : s.cart = .fixed)
    (k : Banks → Host.Outcome α Fault Refusal) : onMulti s k = .refused .noSuchOperation := by simp [onMulti, h]

theorem onFixed_next {s t : State} {k : Host.Outcome State Fault Refusal} (h : onFixed s k = .next t) :
    s.cart = .fixed ∧ k = .next t := by
  unfold onFixed at h
  split at h
  · exact ⟨‹_›, h⟩
  · cases h

theorem onMulti_next {s t : State} {k : Banks → Host.Outcome State Fault Refusal} (h : onMulti s k = .next t) :
    ∃ b, s.cart = .multi b ∧ k b = .next t := by
  unfold onMulti at h
  split at h
  · cases h
  · exact ⟨_, ‹_›, h⟩

theorem deliver_next {α : Type} {f : α → Reply} {o : Host.Outcome (α × State) Fault Refusal} {t : State}
    (h : deliver f o = .next t) : ∃ x u, o = .next (x, u) ∧ t = u.answer (f x) := by
  cases o with
  | next p => obtain ⟨x, u⟩ := p; simp only [deliver, Host.Outcome.next.injEq] at h; exact ⟨x, u, rfl, h.symm⟩
  | fault e => cases h
  | refused e => cases h

@[simp] theorem deliver_of_next {α : Type} (f : α → Reply) (x : α) (u : State) :
    deliver f (.next (x, u)) = .next (u.answer (f x)) := rfl

@[simp] theorem deliver_of_refused {α : Type} (f : α → Reply) (r : Refusal) :
    deliver f (.refused r : Host.Outcome (α × State) Fault Refusal) = .refused r := rfl

@[simp] theorem deliver_of_fault {α : Type} (f : α → Reply) (r : Fault) :
    deliver f (.fault r : Host.Outcome (α × State) Fault Refusal) = .fault r := rfl

end Sys2Proof.Machine
end

