-- ==== Sys2Proof/Laws/Decode.lean ====
section
/-! SUPPORT. The laws of the transaction word's fields and of the decoder. -/

namespace Sys2Proof

/-- A word's bits, field by field (R80). -/
theorem mkWord_getLsbD (sel : BitVec 8) (arg : Arg) (data : Byte) (i : Nat) :
    (mkWord sel arg data).getLsbD i =
      if i < 8 then data.getLsbD i else if i - 8 < 16 then arg.getLsbD (i - 8) else sel.getLsbD (i - 8 - 16) := by
  show BitVec.getLsbD (w := 8 + 16 + 8) (sel ++ arg ++ data) i = _
  rw [BitVec.getLsbD_append, BitVec.getLsbD_append]

@[simp] theorem selOf_mkWord (sel : BitVec 8) (arg : Arg) (data : Byte) : selOf (mkWord sel arg data) = sel := by
  refine BitVec.eq_of_getLsbD_eq fun i hi => ?_
  rw [selOf, BitVec.getLsbD_extractLsb', mkWord_getLsbD, if_neg (by omega), if_neg (by omega),
    show 24 + i - 8 - 16 = i by omega]
  simp [hi]

@[simp] theorem argOf_mkWord (sel : BitVec 8) (arg : Arg) (data : Byte) : argOf (mkWord sel arg data) = arg := by
  refine BitVec.eq_of_getLsbD_eq fun i hi => ?_
  rw [argOf, BitVec.getLsbD_extractLsb', mkWord_getLsbD, if_neg (by omega), if_pos (by omega),
    show 8 + i - 8 = i by omega]
  simp [hi]

@[simp] theorem dataOf_mkWord (sel : BitVec 8) (arg : Arg) (data : Byte) : dataOf (mkWord sel arg data) = data := by
  refine BitVec.eq_of_getLsbD_eq fun i hi => ?_
  rw [dataOf, BitVec.getLsbD_extractLsb', mkWord_getLsbD, if_pos (by omega), show 0 + i = i by omega]
  simp [hi]

/-- A word is its three fields (R80). -/
theorem mkWord_fields (w : TxWord) : mkWord (selOf w) (argOf w) (dataOf w) = w := by
  refine BitVec.eq_of_getLsbD_eq fun i hi => ?_
  simp only [mkWord_getLsbD, selOf, argOf, dataOf, BitVec.getLsbD_extractLsb']
  split
  · simp [*]
  · split
    · simp only [*, decide_true, Bool.true_and]; congr 1; omega
    · rw [decide_eq_true (by omega), Bool.true_and]; congr 1; omega

@[simp] theorem encode_word (i : Instr) : (encode i).word = mkWord i.sel i.arg i.data := rfl
@[simp] theorem encode_beside (i : Instr) : (encode i).beside = i.beside := rfl

@[simp] theorem byVariant_fixed (i j : Instr) : byVariant .fixed i j = .instr i := rfl
@[simp] theorem byVariant_multi (i j : Instr) : byVariant .multi i j = .instr j := rfl
@[simp] theorem multiOnly_fixed (sel : BitVec 8) (i : Instr) : multiOnly .fixed sel i = .rejected (.notInFixedVariant sel) := rfl
@[simp] theorem multiOnly_multi (sel : BitVec 8) (i : Instr) : multiOnly .multi sel i = .instr i := rfl

theorem byVariant_eq_instr {v : Variant} {i j k : Instr} :
    byVariant v i j = .instr k ↔ (v = .fixed ∧ k = i) ∨ (v = .multi ∧ k = j) := by
  cases v <;> simp [eq_comm]

theorem multiOnly_eq_instr {v : Variant} {sel : BitVec 8} {i k : Instr} :
    multiOnly v sel i = .instr k ↔ v = .multi ∧ k = i := by
  cases v <;> simp [eq_comm]

/-- The two tags differ (R14). -/
theorem Config.tagFixed_ne_tagMulti : Config.tagFixed ≠ Config.tagMulti := by
  unfold Config.tagMulti
  split
  · rename_i h
    intro he
    have := congrArg String.length (h ▸ he)
    simp at this
  · exact fun h => ‹¬_› h.symm

end Sys2Proof
end

