-- ==== Sys2Proof/Laws/Memory.lean ====
section
/-! SUPPORT. The laws of the backing store's cells: reads after writes, the canonical form, bounds, and that equal contents
are equal data. -/

namespace Sys2Proof.Machine

@[simp] theorem Memory.read_nil (i : Nat) : Memory.read [] i = Config.fill := rfl

theorem Memory.read_cons (j : Nat) (v : Byte) (m : Memory) (i : Nat) :
    Memory.read ((j, v) :: m) i = if i = j then v else Memory.read m i := rfl

theorem Memory.wfFrom_cons {lo j : Nat} {v : Byte} {m : Memory} :
    Memory.wfFrom lo ((j, v) :: m) = true ↔ lo ≤ j ∧ v ≠ Config.fill ∧ Memory.wfFrom (j + 1) m = true := by
  simp [Memory.wfFrom, and_assoc]

theorem Memory.wfFrom_mono {lo lo' : Nat} {m : Memory} (h : Memory.wfFrom lo m = true) (hl : lo' ≤ lo) :
    Memory.wfFrom lo' m = true := by
  cases m with
  | nil => rfl
  | cons c m =>
    obtain ⟨j, v⟩ := c
    rw [Memory.wfFrom_cons] at h ⊢
    exact ⟨by omega, h.2⟩

/-- Below a canonical list's lower bound nothing is listed. -/
theorem Memory.read_of_lt {lo i : Nat} {m : Memory} (h : Memory.wfFrom lo m = true) (hi : i < lo) :
    Memory.read m i = Config.fill := by
  induction m generalizing lo with
  | nil => rfl
  | cons c m ih =>
    obtain ⟨j, v⟩ := c
    rw [Memory.wfFrom_cons] at h
    rw [Memory.read_cons, if_neg (by omega)]
    exact ih h.2.2 (by omega)

/-- A write keeps the canonical form. -/
theorem Memory.wfFrom_write {lo i : Nat} {m : Memory} (h : Memory.wfFrom lo m = true) (hi : lo ≤ i) (v : Byte) :
    Memory.wfFrom lo (Memory.write m i v) = true := by
  induction m generalizing lo with
  | nil =>
    unfold Memory.write
    split
    · rfl
    · rw [Memory.wfFrom_cons]; exact ⟨hi, ‹_›, rfl⟩
  | cons c m ih =>
    obtain ⟨j, w⟩ := c
    have hc := Memory.wfFrom_cons.1 h
    unfold Memory.write
    split
    · split
      · exact h
      · rw [Memory.wfFrom_cons, Memory.wfFrom_cons]; exact ⟨hi, ‹_›, by omega, hc.2⟩
    · split
      · split
        · exact Memory.wfFrom_mono hc.2.2 (by omega)
        · rw [Memory.wfFrom_cons]; exact ⟨hc.1, ‹_›, hc.2.2⟩
      · rw [Memory.wfFrom_cons]; exact ⟨hc.1, hc.2.1, ih hc.2.2 (by omega)⟩

/-- `Memory.write` keeps `Memory.wf`. -/
theorem Memory.wf_write {m : Memory} (h : Memory.wf m = true) (i : Nat) (v : Byte) :
    Memory.wf (Memory.write m i v) = true := Memory.wfFrom_write h (Nat.zero_le i) v

/-- A read after a write: the byte written at its own offset, every other offset as before. -/
theorem Memory.read_write_from {lo : Nat} {m : Memory} (h : Memory.wfFrom lo m = true) (i : Nat) (v : Byte) (k : Nat) :
    Memory.read (Memory.write m i v) k = if k = i then v else Memory.read m k := by
  induction m generalizing lo with
  | nil =>
    unfold Memory.write
    split <;> simp_all [Memory.read_cons]
  | cons c m ih =>
    obtain ⟨j, w⟩ := c
    have hc := Memory.wfFrom_cons.1 h
    unfold Memory.write
    split
    · split
      · by_cases hk : k = i
        · subst hk
          rw [if_pos rfl, Memory.read_cons, if_neg (by omega), Memory.read_of_lt hc.2.2 (by omega)]
          exact Eq.symm ‹_›
        · rw [if_neg hk]
      · rw [Memory.read_cons]
    · split
      · subst i
        split
        · by_cases hk : k = j
          · subst hk
            rw [if_pos rfl, Memory.read_of_lt hc.2.2 (by omega)]
            exact Eq.symm ‹_›
          · rw [if_neg hk, Memory.read_cons, if_neg hk]
        · simp only [Memory.read_cons]
          split <;> rfl
      · rw [Memory.read_cons, ih hc.2.2, Memory.read_cons]
        by_cases hk : k = j
        · subst hk
          rw [if_pos rfl, if_neg (by omega), if_pos rfl]
        · rw [if_neg hk, if_neg hk]

theorem Memory.read_write {m : Memory} (h : Memory.wf m = true) (i : Nat) (v : Byte) (k : Nat) :
    Memory.read (Memory.write m i v) k = if k = i then v else Memory.read m k := Memory.read_write_from h i v k

/-- A write lists no offset but its own. -/
theorem Memory.mem_write {m : Memory} {i : Nat} {v : Byte} {c : Host.Cell} (h : c ∈ Memory.write m i v) :
    c.1 = i ∨ c ∈ m := by
  induction m with
  | nil =>
    unfold Memory.write at h
    split at h <;> simp_all
  | cons d m ih =>
    obtain ⟨j, w⟩ := d
    unfold Memory.write at h
    split at h
    · split at h
      · exact .inr h
      · rcases List.mem_cons.1 h with rfl | h
        · exact .inl rfl
        · exact .inr h
    · split at h
      · subst i
        split at h
        · exact .inr (List.mem_cons_of_mem _ h)
        · rcases List.mem_cons.1 h with rfl | h
          · exact .inl rfl
          · exact .inr (List.mem_cons_of_mem _ h)
      · rcases List.mem_cons.1 h with rfl | h
        · exact .inr List.mem_cons_self
        · exact (ih h).imp_right (List.mem_cons_of_mem _)

/-- Laying down a byte sequence gives the canonical form. -/
theorem Memory.wfFrom_ofBytes (base : Nat) (l : List Byte) : Memory.wfFrom base (Memory.ofBytes base l) = true := by
  induction l generalizing base with
  | nil => rfl
  | cons v l ih =>
    unfold Memory.ofBytes
    split
    · exact Memory.wfFrom_mono (ih _) (by omega)
    · rw [Memory.wfFrom_cons]; exact ⟨Nat.le_refl _, ‹_›, ih _⟩

theorem Memory.wf_ofBytes (l : List Byte) : Memory.wf (Memory.ofBytes 0 l) = true := Memory.wfFrom_ofBytes 0 l

theorem Memory.read_ofBytes_from (base : Nat) (l : List Byte) (i : Nat) :
    Memory.read (Memory.ofBytes base l) (base + i) = l.getD i Config.fill := by
  induction l generalizing base i with
  | nil => rfl
  | cons v l ih =>
    have hnext : ∀ k, Memory.read (Memory.ofBytes (base + 1) l) (base + (k + 1)) = l.getD k Config.fill := by
      intro k
      rw [← ih (base + 1) k]
      congr 1
      omega
    unfold Memory.ofBytes
    cases i with
    | zero =>
      split
      · rw [Memory.read_of_lt (Memory.wfFrom_ofBytes _ _) (by omega)]
        simpa using Eq.symm ‹_›
      · simp [Memory.read_cons]
    | succ k =>
      split
      · rw [hnext]; simp
      · rw [Memory.read_cons, if_neg (by omega), hnext]; simp

/-- A byte sequence reads back byte for byte, and as the fill byte beyond its end. -/
theorem Memory.read_ofBytes (l : List Byte) (i : Nat) :
    Memory.read (Memory.ofBytes 0 l) i = l.getD i Config.fill := by
  simpa using Memory.read_ofBytes_from 0 l i

theorem Memory.mem_ofBytes_from {base : Nat} {l : List Byte} {c : Host.Cell} (h : c ∈ Memory.ofBytes base l) :
    c.1 < base + l.length := by
  induction l generalizing base with
  | nil => cases h
  | cons v l ih =>
    unfold Memory.ofBytes at h
    simp only [List.length_cons]
    split at h
    · have := ih h; omega
    · rcases List.mem_cons.1 h with rfl | h
      · simp
      · have := ih h; omega

/-- A byte sequence lists no offset beyond its length. -/
theorem Memory.mem_ofBytes {l : List Byte} {c : Host.Cell} (h : c ∈ Memory.ofBytes 0 l) : c.1 < l.length := by
  simpa using Memory.mem_ofBytes_from h

theorem Memory.eq_of_read_from {lo : Nat} {m m' : Memory} (h : Memory.wfFrom lo m = true)
    (h' : Memory.wfFrom lo m' = true) (hr : ∀ i, Memory.read m i = Memory.read m' i) : m = m' := by
  induction m generalizing lo m' with
  | nil =>
    cases m' with
    | nil => rfl
    | cons c m' =>
      obtain ⟨j, v⟩ := c
      have := hr j
      rw [Memory.read_cons, if_pos rfl] at this
      exact absurd this.symm (Memory.wfFrom_cons.1 h').2.1
  | cons c m ih =>
    obtain ⟨j, v⟩ := c
    have hc := Memory.wfFrom_cons.1 h
    cases m' with
    | nil =>
      have := hr j
      rw [Memory.read_cons, if_pos rfl] at this
      exact absurd this hc.2.1
    | cons d m' =>
      obtain ⟨k, w⟩ := d
      have hd := Memory.wfFrom_cons.1 h'
      have hjk : j = k := by
        rcases Nat.lt_trichotomy j k with hlt | heq | hgt
        · have := hr j
          rw [Memory.read_cons, if_pos rfl, Memory.read_cons, if_neg (by omega),
            Memory.read_of_lt hd.2.2 (by omega)] at this
          exact absurd this hc.2.1
        · exact heq
        · have := hr k
          rw [Memory.read_cons, if_neg (by omega), Memory.read_of_lt hc.2.2 (by omega), Memory.read_cons,
            if_pos rfl] at this
          exact absurd this.symm hd.2.1
      subst hjk
      have hv : v = w := by have := hr j; rwa [Memory.read_cons, if_pos rfl, Memory.read_cons, if_pos rfl] at this
      subst hv
      congr 1
      refine ih hc.2.2 hd.2.2 fun i => ?_
      by_cases hi : i = j
      · subst hi
        rw [Memory.read_of_lt hc.2.2 (by omega), Memory.read_of_lt hd.2.2 (by omega)]
      · have := hr i
        rwa [Memory.read_cons, if_neg hi, Memory.read_cons, if_neg hi] at this

/-- Equal contents are equal data. -/
theorem Memory.eq_of_read {m m' : Memory} (h : Memory.wf m = true) (h' : Memory.wf m' = true)
    (hr : ∀ i, Memory.read m i = Memory.read m' i) : m = m' := Memory.eq_of_read_from h h' hr

/-- `store[k]` after `store[i] <- v`. -/
theorem Store.read_write {st : Store} (h : Memory.wf st.cells = true) (i : Nat) (v : Byte) (k : Nat) :
    (st.write i v).read k = if k = i then v else st.read k := Memory.read_write h i v k

/-- `store[k]` of a store laid down from a byte sequence. -/
theorem Store.read_ofBytes (n : Nat) (l : List Byte) (k : Nat) : (Store.ofBytes n l).read k = l.getD k Config.fill :=
  Memory.read_ofBytes l k

/-- The memory of the reset state is in canonical form. -/
theorem State.reset_store_wf : Memory.wf State.reset.store.cells = true := rfl

end Sys2Proof.Machine
end

