-- ==== Sys2Proof/Laws/PageTable.lean ====
section
/-! SUPPORT. The laws of the page table and of the fields read from addresses and page indexes. -/

namespace Sys2Proof.Machine

theorem PageTable.get_publish (t : PageTable) (which : PageIdx → Bool) (d : PageIdx → Desc) (p : PageIdx) :
    PageTable.get (PageTable.publish t which d) p = if which p then .mapped (d p) else PageTable.get t p := by
  simp [PageTable.get, PageTable.publish]

theorem PageTable.get_set (t : PageTable) (p : PageIdx) (d : Desc) (q : PageIdx) :
    PageTable.get (PageTable.set t p d) q = if q = p then .mapped d else PageTable.get t q := by
  simp [PageTable.set, PageTable.get_publish]

@[simp] theorem PageTable.get_empty (p : PageIdx) : PageTable.get PageTable.empty p = .unmapped := by
  simp [PageTable.get, PageTable.empty]

/-- Page tables with equal entries are equal. -/
theorem PageTable.eq_of_get {t u : PageTable} (h : ∀ p, PageTable.get t p = PageTable.get u p) : t = u := by
  refine Vector.ext fun i hi => ?_
  have := h (BitVec.ofNat 7 i)
  simpa [PageTable.get, Nat.mod_eq_of_lt hi] using this

@[simp] theorem Banks.slot_captureAll (n k : Nat) (l : Bool) (t : PageTable) (h : Slot) :
    Banks.slot { bankCount := n, bank := k, bankLocked := l, captured := captureAll t } h
      = descOr (PageTable.get t (hotspotPage h)) hotDesc := by
  simp [Banks.slot, captureAll]

/-- `captured` is determined by its slots. -/
theorem Banks.captured_eq_of_slot {b c : Banks} (h : ∀ i, b.slot i = c.slot i) : b.captured = c.captured := by
  refine Vector.ext fun i hi => ?_
  have := h (BitVec.ofNat 5 i)
  simpa [Banks.slot, Nat.mod_eq_of_lt hi] using this

/-! ### Fields of addresses and page indexes, as numbers -/

@[simp] theorem busAddr_toNat (a : Arg) : (busAddr a).toNat = a.toNat % 8192 := by simp [busAddr]

@[simp] theorem pageOf_toNat (a : BusAddr) : (pageOf a).toNat = a.toNat / 64 := by
  have := a.isLt
  simp [pageOf, Nat.shiftRight_eq_div_pow]
  omega

@[simp] theorem slotOf_toNat (a : BusAddr) : (slotOf a).toNat = a.toNat / 64 % 32 := by
  simp [slotOf, Nat.shiftRight_eq_div_pow]

@[simp] theorem hotspotPage_toNat (h : Slot) : (hotspotPage h).toNat = 32 + h.toNat := by
  have := h.isLt
  simp [hotspotPage]
  omega

theorem inWindow_iff (a : BusAddr) : inWindow a = true ↔ 4096 ≤ a.toNat := by
  have := a.isLt
  simp [inWindow, BitVec.getLsbD, Nat.testBit_eq_decide_div_mod_eq]
  omega

theorem inHotspot_iff (a : BusAddr) : inHotspot a = true ↔ 2048 ≤ a.toNat ∧ a.toNat < 4096 := by
  revert a
  decide +kernel

theorem isWindowPage_iff (p : PageIdx) : isWindowPage p = true ↔ 64 ≤ p.toNat := by simp [isWindowPage]

theorem isHotspotPage_iff (p : PageIdx) : isHotspotPage p = true ↔ 32 ≤ p.toNat ∧ p.toNat < 64 := by simp [isHotspotPage]

/-- The window is exactly the window pages (R7). -/
theorem isWindowPage_pageOf (a : BusAddr) : isWindowPage (pageOf a) = inWindow a := by
  rw [Bool.eq_iff_iff, isWindowPage_iff, inWindow_iff, pageOf_toNat]
  omega

/-- The hotspot region is exactly the hotspot pages (R8). -/
theorem isHotspotPage_pageOf (a : BusAddr) : isHotspotPage (pageOf a) = inHotspot a := by
  rw [Bool.eq_iff_iff, isHotspotPage_iff, inHotspot_iff, pageOf_toNat]
  omega

@[simp] theorem isHotspotPage_hotspotPage (h : Slot) : isHotspotPage (hotspotPage h) = true := by
  have := h.isLt
  rw [isHotspotPage_iff, hotspotPage_toNat]
  omega

@[simp] theorem isWindowPage_hotspotPage (h : Slot) : isWindowPage (hotspotPage h) = false := by
  have := h.isLt
  rw [Bool.eq_false_iff, ne_eq, isWindowPage_iff, hotspotPage_toNat]
  omega

theorem not_window_of_hotspot {a : BusAddr} (h : inHotspot a = true) : inWindow a = false := by
  rw [inHotspot_iff] at h
  rw [Bool.eq_false_iff, ne_eq, inWindow_iff]
  omega

theorem not_hotspot_of_window {a : BusAddr} (h : inWindow a = true) : inHotspot a = false := by
  rw [inWindow_iff] at h
  rw [Bool.eq_false_iff, ne_eq, inHotspot_iff]
  omega

/-- Every hotspot page is the page of one captured slot (R32). -/
theorem exists_hotspotPage {p : PageIdx} (h : isHotspotPage p = true) : ∃ i : Slot, p = hotspotPage i := by
  rw [isHotspotPage_iff] at h
  refine ⟨BitVec.ofNat 5 (p.toNat - 32), BitVec.eq_of_toNat_eq ?_⟩
  rw [hotspotPage_toNat, BitVec.toNat_ofNat]
  omega

/-- The page of a hotspot address is the page its slot captured (R89). -/
theorem pageOf_eq_hotspotPage_slotOf {a : BusAddr} (h : inHotspot a = true) : pageOf a = hotspotPage (slotOf a) := by
  rw [inHotspot_iff] at h
  apply BitVec.eq_of_toNat_eq
  rw [pageOf_toNat, hotspotPage_toNat, slotOf_toNat]
  omega

/-- A 13-bit bus address carried in a 16-bit operand is reduced to itself (R4). -/
@[simp] theorem busAddr_setWidth (a : BusAddr) : busAddr (a.setWidth 16) = a := by
  have := a.isLt
  apply BitVec.eq_of_toNat_eq
  rw [busAddr_toNat]
  simp
  omega

theorem pageArg?_of_le {p : Arg} (h : p.toNat ≤ 127) : pageArg? p = some (p.setWidth 7) := by simp [pageArg?, h]

theorem pageArg?_of_gt {p : Arg} (h : 127 < p.toNat) : pageArg? p = none := by
  simp [pageArg?]; omega

theorem pageArg?_eq_some {p : Arg} {q : PageIdx} (h : pageArg? p = some q) : p.toNat ≤ 127 ∧ q.toNat = p.toNat := by
  unfold pageArg? at h
  split at h
  · cases h
    refine ⟨‹_›, ?_⟩
    simp
    omega
  · cases h

/-! ### Offsets and bank indexes -/

/-- The hotspot bank-select function gives a legal bank index, whatever the bank count (R16). -/
theorem hotBank_lt {n : Nat} (h : 1 ≤ n) (a : BusAddr) : hotBank n a < n := by
  have : hotBank n a ≤ n - 1 := Nat.and_le_right
  omega

theorem and_0xFFF (n : Nat) : n &&& 0x0FFF = n % 4096 := Nat.and_two_pow_sub_one_eq_mod n 12

/-- Reducing to the bus width first loses nothing of the in-bank offset (R87). -/
theorem busAddr_mod_4096 (a : Arg) : (busAddr a).toNat % 4096 = a.toNat % 4096 := by rw [busAddr_toNat]; omega

theorem bankOffset_eq (bank n : Nat) : bankOffset bank n = bank * 4096 + n % 4096 := by
  simp [bankOffset, and_0xFFF]

/-- A Multi translation stays inside the store (R71). -/
theorem bankOffset_lt {bank count : Nat} (h : bank < count) (n : Nat) : bankOffset bank n < count * 4096 := by
  rw [bankOffset_eq]; omega

/-- A Fixed translation stays inside the store (R71). -/
theorem fixedOffset_lt {size : Nat} (h : 0 < size) (n : Nat) : fixedOffset size n < size := by
  have : fixedOffset size n ≤ size - 1 := Nat.and_le_right
  omega

theorem fixedSizes_pow {n : Nat} (h : n ∈ fixedSizes) : ∃ k, 6 ≤ k ∧ k ≤ 11 ∧ n = 2 ^ k := by
  simp only [fixedSizes, List.mem_cons, List.not_mem_nil, or_false] at h
  rcases h with rfl | rfl | rfl | rfl | rfl | rfl
  · exact ⟨6, by decide⟩
  · exact ⟨7, by decide⟩
  · exact ⟨8, by decide⟩
  · exact ⟨9, by decide⟩
  · exact ⟨10, by decide⟩
  · exact ⟨11, by decide⟩

theorem fixedOffset_pow (k n : Nat) : fixedOffset (2 ^ k) n = n % 2 ^ k := Nat.and_two_pow_sub_one_eq_mod n k

/-- Bits 11 and above of an address never matter to a Fixed store (R57). -/
theorem fixedOffset_bus {size : Nat} (h : size ∈ fixedSizes) (a : Arg) :
    fixedOffset size (busAddr a).toNat = fixedOffset size a.toNat := by
  obtain ⟨k, h6, h11, rfl⟩ := fixedSizes_pow h
  rw [fixedOffset_pow, fixedOffset_pow, busAddr_toNat]
  exact Nat.mod_mod_of_dvd _ (pow_dvd_pow 2 (show k ≤ 13 by omega))

/-! ### The Fixed store size -/

theorem nextPow2From_ge {fuel p n : Nat} (h : n ≤ 2 ^ fuel * p) : n ≤ nextPow2From fuel p n := by
  induction fuel generalizing p with
  | zero => simpa [nextPow2From] using h
  | succ f ih =>
    unfold nextPow2From
    split
    · assumption
    · exact ih (by rw [pow_succ] at h; rw [← Nat.mul_assoc]; exact h)

theorem nextPow2From_pow (fuel j n : Nat) : ∃ k, nextPow2From fuel (2 ^ j) n = 2 ^ k := by
  induction fuel generalizing j with
  | zero => exact ⟨j, rfl⟩
  | succ f ih =>
    unfold nextPow2From
    split
    · exact ⟨j, rfl⟩
    · rw [show 2 * 2 ^ j = 2 ^ (j + 1) by rw [pow_succ]; omega]
      exact ih (j + 1)

theorem nextPow2From_least {fuel j n m : Nat} (hj : 2 ^ j ≤ 2 ^ m) (hm : n ≤ 2 ^ m) :
    nextPow2From fuel (2 ^ j) n ≤ 2 ^ m := by
  induction fuel generalizing j with
  | zero => exact hj
  | succ f ih =>
    unfold nextPow2From
    split
    · exact hj
    · rename_i hn
      rw [show 2 * 2 ^ j = 2 ^ (j + 1) by rw [pow_succ]; omega]
      refine ih ?_
      have : j < m := (Nat.pow_lt_pow_iff_right (by decide : 1 < 2)).1 (by omega)
      exact Nat.pow_le_pow_right (by decide) this

/-- `nextPow2 n` is at least `n`. -/
theorem le_nextPow2 (n : Nat) : n ≤ nextPow2 n :=
  nextPow2From_ge (by have : n < 2 ^ n := Nat.lt_two_pow_self; omega)

/-- `nextPow2 n` is a power of two. -/
theorem nextPow2_pow (n : Nat) : ∃ k, nextPow2 n = 2 ^ k := nextPow2From_pow n 0 n

/-- No smaller power of two is at least `n`. -/
theorem nextPow2_least {n m : Nat} (h : n ≤ 2 ^ m) : nextPow2 n ≤ 2 ^ m :=
  nextPow2From_least (j := 0) (by simpa using Nat.one_le_two_pow) h

/-- The store size of a Fixed cartridge is one of the six legal ones (R27). -/
theorem fixedStoreSize_mem (n : Nat) : fixedStoreSize n ∈ fixedSizes := by
  obtain ⟨k, hk⟩ := nextPow2_pow (fixedCopied n)
  have hle : nextPow2 (fixedCopied n) ≤ 2 ^ 11 := nextPow2_least (by simp [fixedCopied])
  have hk11 : k ≤ 11 := (Nat.pow_le_pow_iff_right (by decide : 1 < 2)).1 (hk ▸ hle)
  unfold fixedStoreSize
  rw [hk]
  interval_cases k <;> decide

/-- The image bytes a Fixed cartridge takes fit its store (R27, R110). -/
theorem fixedCopied_le_size (n : Nat) : fixedCopied n ≤ fixedStoreSize n :=
  Nat.le_trans (le_nextPow2 _) (Nat.le_max_right _ _)

/-! ### M.INSTALL's checks and captures -/

theorem mem_allSlots (h : Slot) : h ∈ allSlots := by
  refine List.mem_map.2 ⟨h.toFin, List.mem_finRange _, rfl⟩

/-- The slots before `h` in the order of R137's check are those with a smaller index. -/
theorem allSlots_split (h : Slot) : ∃ before after, allSlots = before ++ h :: after ∧ ∀ g ∈ before, g.toNat < h.toNat := by
  refine ⟨allSlots.take h.toNat, allSlots.drop (h.toNat + 1), ?_, ?_⟩ <;> revert h <;> decide +kernel

/-- M.INSTALL meets no obstacle exactly when every hotspot page is mapped to a device outside the cartridge (R137). -/
theorem installObstacle_eq_none_iff (t : PageTable) :
    installObstacle t = none ↔
      ∀ h : Slot, ∃ d, PageTable.get t (hotspotPage h) = .mapped d ∧ d.owner ≠ .cart := by
  unfold installObstacle
  rw [List.findSome?_eq_none_iff]
  constructor
  · intro hall h
    have := hall h (mem_allSlots h)
    unfold captureObstacle at this
    split at this
    · cases this
    · rename_i d hd
      split at this
      · cases this
      · exact ⟨d, hd, ‹_›⟩
  · intro hall h _
    obtain ⟨d, hd, ho⟩ := hall h
    simp [captureObstacle, hd, ho]

end Sys2Proof.Machine
end

