-- ==== Sys2Proof/Laws/Ops.lean ====
section
/-! SUPPORT. For each shared operation, everything it can do when it answers a next state; the meanings' lemmas cite these
instead of unfolding the operations. -/

namespace Sys2Proof.Machine

/-! ### External devices and forwarding -/

theorem extPeek_next {k : Nat} {a : BusAddr} {s u : State} {x : Byte} (h : extPeek k a s = .next (x, u)) :
    s.reenteredNext = false ∧ x = Config.extPeek k (historyOf k s.calls) a ∧ u = s.called k (.peek a) := by
  unfold extPeek at h
  split at h
  · cases h
  · simp only [Host.Outcome.next.injEq, Prod.mk.injEq] at h
    exact ⟨eq_false_of_ne_true ‹_›, h.1.symm, h.2.symm⟩

theorem extPoke_next {k : Nat} {a : BusAddr} {v : Byte} {s u : State} {x : Bool} (h : extPoke k a v s = .next (x, u)) :
    s.reenteredNext = false ∧ x = Config.extPoke k (historyOf k s.calls) a v ∧ u = s.called k (.poke a v) := by
  unfold extPoke at h
  split at h
  · cases h
  · simp only [Host.Outcome.next.injEq, Prod.mk.injEq] at h
    exact ⟨eq_false_of_ne_true ‹_›, h.1.symm, h.2.symm⟩

theorem extPeek_of_free {k : Nat} {a : BusAddr} {s : State} (h : s.reenteredNext = false) :
    extPeek k a s = .next (Config.extPeek k (historyOf k s.calls) a, s.called k (.peek a)) := by
  simp [extPeek, h]

theorem extPoke_of_free {k : Nat} {a : BusAddr} {v : Byte} {s : State} (h : s.reenteredNext = false) :
    extPoke k a v s = .next (Config.extPoke k (historyOf k s.calls) a v, s.called k (.poke a v)) := by
  simp [extPoke, h]

theorem forwardPeek_next {d : Desc} {a : BusAddr} {s u : State} {x : Byte} (h : forwardPeek d a s = .next (x, u)) :
    ∃ k, d.owner = .ext k ∧ extPeek k a s = .next (x, u) := by
  unfold forwardPeek at h
  split at h
  · cases h
  · exact ⟨_, ‹_›, h⟩

theorem forwardPoke_next {d : Desc} {a : BusAddr} {v : Byte} {s u : State} {x : Bool}
    (h : forwardPoke d a v s = .next (x, u)) : ∃ k, d.owner = .ext k ∧ extPoke k a v s = .next (x, u) := by
  unfold forwardPoke at h
  split at h
  · cases h
  · exact ⟨_, ‹_›, h⟩

/-! ### The bank selector -/

/-- A bank attempt either finds the lock and changes nothing, or selects the reduced index (R138). -/
theorem tryBank_cases (n : Nat) (b : Banks) (s : State) :
    (b.bankLocked = true ∧ tryBank n b s = (false, s)) ∨
    (b.bankLocked = false ∧ tryBank n b s = (true, selectBank (n % b.bankCount) b s)) := by
  cases h : b.bankLocked <;> simp [tryBank, h]

/-- What a hotspot access's switch attempt leaves (R135, R165): the state as it was when locked, the selected bank when not. -/
theorem switch_cases (n : Nat) (b : Banks) (s : State) :
    (b.bankLocked = true ∧ (tryBank n b s).2 = s) ∨
    (b.bankLocked = false ∧ (tryBank n b s).2 = selectBank (n % b.bankCount) b s) := by
  rcases tryBank_cases n b s with ⟨hl, h⟩ | ⟨hl, h⟩ <;> simp [hl, h]

@[simp] theorem tryBank_calls (n : Nat) (b : Banks) (s : State) : (tryBank n b s).2.calls = s.calls := by
  rcases switch_cases n b s with ⟨_, h⟩ | ⟨_, h⟩ <;> simp [h]

@[simp] theorem tryBank_reentries (n : Nat) (b : Banks) (s : State) : (tryBank n b s).2.reentries = s.reentries := by
  rcases switch_cases n b s with ⟨_, h⟩ | ⟨_, h⟩ <;> simp [h]

@[simp] theorem tryBank_reenteredNext (n : Nat) (b : Banks) (s : State) :
    (tryBank n b s).2.reenteredNext = s.reenteredNext := by simp [State.reenteredNext]

/-- HotBank is already below `bankCount`, so M.BANK's reduction leaves it (R16, R134). -/
theorem hotBank_mod {b : Banks} (h : 1 ≤ b.bankCount) (a : BusAddr) :
    hotBank b.bankCount a % b.bankCount = hotBank b.bankCount a := Nat.mod_eq_of_lt (hotBank_lt h a)

/-- Everything a hotspot access can do (R135, R136, R178): it is installed, and it forwards from the switched state. -/
theorem hotspotAccess_next {α : Type} {a : BusAddr} {b : Banks} {s u : State} {x : α}
    {f : Desc → State → Host.Outcome (α × State) Fault Refusal} (h : hotspotAccess a b s f = .next (x, u)) :
    s.installed = true ∧ f (b.slot (slotOf a)) (tryBank (hotBank b.bankCount a) b s).2 = .next (x, u) := by
  unfold hotspotAccess at h
  split at h
  · exact ⟨‹_›, h⟩
  · cases h

/-- Everything M.PEEK can do. -/
theorem multiPeek_next {a : Arg} {b : Banks} {s u : State} {x : Byte} (h : multiPeek a b s = .next (x, u)) :
    (inHotspot (busAddr a) = false ∧ x = bankByte (busAddr a) b s ∧ u = s) ∨
    (inHotspot (busAddr a) = true ∧ s.installed = true ∧ ∃ k, (b.slot (slotOf (busAddr a))).owner = .ext k ∧
      u = ((tryBank (hotBank b.bankCount (busAddr a)) b s).2).called k (.peek (busAddr a))) := by
  unfold multiPeek at h
  split at h
  · obtain ⟨hi, hf⟩ := hotspotAccess_next h
    obtain ⟨k, hk, he⟩ := forwardPeek_next hf
    exact .inr ⟨‹_›, hi, k, hk, (extPeek_next he).2.2⟩
  · simp only [Host.Outcome.next.injEq, Prod.mk.injEq] at h
    exact .inl ⟨eq_false_of_ne_true ‹_›, h.1.symm, h.2.symm⟩

/-- Everything M.POKE can do. -/
theorem multiPoke_next {a : Arg} {v : Byte} {b : Banks} {s u : State} {x : Bool} (h : multiPoke a v b s = .next (x, u)) :
    (inHotspot (busAddr a) = false ∧ x = false ∧ u = s) ∨
    (inHotspot (busAddr a) = true ∧ s.installed = true ∧ ∃ k, (b.slot (slotOf (busAddr a))).owner = .ext k ∧
      u = ((tryBank (hotBank b.bankCount (busAddr a)) b s).2).called k (.poke (busAddr a) v)) := by
  unfold multiPoke at h
  split at h
  · obtain ⟨hi, hf⟩ := hotspotAccess_next h
    obtain ⟨k, hk, he⟩ := forwardPoke_next hf
    exact .inr ⟨‹_›, hi, k, hk, (extPoke_next he).2.2⟩
  · simp only [Host.Outcome.next.injEq, Prod.mk.injEq] at h
    exact .inl ⟨eq_false_of_ne_true ‹_›, h.1.symm, h.2.symm⟩

/-! ### The two calls a device answers, case by case -/

theorem reenteredNext_of_not_mem {s : State} (h : s.calls.length ∉ s.reentries) : s.reenteredNext = false := by
  simp [State.reenteredNext, h]

theorem reenteredNext_of_mem {s : State} (h : s.calls.length ∈ s.reentries) : s.reenteredNext = true := by
  simp [State.reenteredNext, h]

theorem devPeek_fixed {s : State} (h : s.cart = .fixed) (a : BusAddr) :
    devPeek .cart a s = .next (fixedByte (a.setWidth 16) s, s) := by simp [devPeek, h]

theorem devPoke_fixed {s : State} (h : s.cart = .fixed) (a : BusAddr) (v : Byte) :
    devPoke .cart a v s = .next (false, s) := by simp [devPoke, h]

theorem devPeek_multi {s : State} {b : Banks} (h : s.cart = .multi b) (a : BusAddr) :
    devPeek .cart a s = multiPeek (a.setWidth 16) b s := by simp [devPeek, h]

theorem devPoke_multi {s : State} {b : Banks} (h : s.cart = .multi b) (a : BusAddr) (v : Byte) :
    devPoke .cart a v s = multiPoke (a.setWidth 16) v b s := by simp [devPoke, h]

theorem multiPeek_outside {a : Arg} (h : inHotspot (busAddr a) = false) (b : Banks) (s : State) :
    multiPeek a b s = .next (bankByte (busAddr a) b s, s) := by simp [multiPeek, h]

theorem multiPoke_outside {a : Arg} (h : inHotspot (busAddr a) = false) (v : Byte) (b : Banks) (s : State) :
    multiPoke a v b s = .next (false, s) := by simp [multiPoke, h]

/-- A forwarded hotspot peek, whole (R135, R145). -/
theorem multiPeek_forwarded {a : Arg} {b : Banks} {s : State} {k : Nat} (hi : s.installed = true)
    (hh : inHotspot (busAddr a) = true) (ho : (b.slot (slotOf (busAddr a))).owner = .ext k)
    (hr : s.calls.length ∉ s.reentries) :
    multiPeek a b s = .next (Config.extPeek k (historyOf k s.calls) (busAddr a),
      (tryBank (hotBank b.bankCount (busAddr a)) b s).2.called k (.peek (busAddr a))) := by
  have h : (tryBank (hotBank b.bankCount (busAddr a)) b s).2.reenteredNext = false := by
    rw [tryBank_reenteredNext]; exact reenteredNext_of_not_mem hr
  simp [multiPeek, hh, hotspotAccess, hi, forwardPeek, ho, extPeek_of_free h]

/-- A forwarded hotspot poke, whole (R136, R145). -/
theorem multiPoke_forwarded {a : Arg} {v : Byte} {b : Banks} {s : State} {k : Nat} (hi : s.installed = true)
    (hh : inHotspot (busAddr a) = true) (ho : (b.slot (slotOf (busAddr a))).owner = .ext k)
    (hr : s.calls.length ∉ s.reentries) :
    multiPoke a v b s = .next (Config.extPoke k (historyOf k s.calls) (busAddr a) v,
      (tryBank (hotBank b.bankCount (busAddr a)) b s).2.called k (.poke (busAddr a) v)) := by
  have h : (tryBank (hotBank b.bankCount (busAddr a)) b s).2.reenteredNext = false := by
    rw [tryBank_reenteredNext]; exact reenteredNext_of_not_mem hr
  simp [multiPoke, hh, hotspotAccess, hi, forwardPoke, ho, extPoke_of_free h]

/-- The switch of an unlocked hotspot access selects `a & (bankCount - 1)` (R134). -/
theorem switch_unlocked {b : Banks} (hb : 1 ≤ b.bankCount) (hl : b.bankLocked = false) (a : BusAddr) (s : State) :
    (tryBank (hotBank b.bankCount a) b s).2 = selectBank (a.toNat &&& (b.bankCount - 1)) b s := by
  simp only [tryBank, hl, hotBank_mod hb a]; rfl

/-- The switch of a locked hotspot access changes nothing (R165). -/
theorem switch_locked {b : Banks} (hl : b.bankLocked = true) (n : Nat) (s : State) : (tryBank n b s).2 = s := by
  simp [tryBank, hl]

/-! ### What one access leaves -/

/-- The states a bus or cartridge access can leave, whatever it returns. -/
inductive AccessLeaves (a : BusAddr) (s : State) : State → Prop where
  /-- Nothing has changed: a window or low access of the cartridge. -/
  | same : AccessLeaves a s s
  /-- An external device that owns the page has had one more call. -/
  | device (k : Nat) (x : DevAccess) : AccessLeaves a s (s.called k x)
  /-- A hotspot access: the switch attempt, then one call of the captured device. -/
  | hotspot (b : Banks) (k : Nat) (x : DevAccess) (hc : s.cart = .multi b) (hh : inHotspot a = true)
      (hi : s.installed = true) (ho : (b.slot (slotOf a)).owner = .ext k) :
      AccessLeaves a s ((tryBank (hotBank b.bankCount a) b s).2.called k x)

theorem multiPeek_leaves {a : Arg} {b : Banks} {s u : State} {x : Byte} (hc : s.cart = .multi b)
    (h : multiPeek a b s = .next (x, u)) : AccessLeaves (busAddr a) s u := by
  rcases multiPeek_next h with ⟨_, _, rfl⟩ | ⟨hh, hi, k, ho, rfl⟩
  · exact .same
  · exact .hotspot b k _ hc hh hi ho

theorem multiPoke_leaves {a : Arg} {v : Byte} {b : Banks} {s u : State} {x : Bool} (hc : s.cart = .multi b)
    (h : multiPoke a v b s = .next (x, u)) : AccessLeaves (busAddr a) s u := by
  rcases multiPoke_next h with ⟨_, _, rfl⟩ | ⟨hh, hi, k, ho, rfl⟩
  · exact .same
  · exact .hotspot b k _ hc hh hi ho

/-- Everything `Dev(o).peek(a)` can leave. -/
theorem devPeek_leaves {o : DeviceId} {a : BusAddr} {s u : State} {x : Byte} (h : devPeek o a s = .next (x, u)) :
    AccessLeaves a s u := by
  unfold devPeek at h
  split at h
  · rw [(extPeek_next h).2.2]; exact .device _ _
  · split at h
    · simp only [Host.Outcome.next.injEq, Prod.mk.injEq] at h
      rw [← h.2]; exact .same
    · simpa using multiPeek_leaves ‹_› h

/-- Everything `Dev(o).poke(a, v)` can leave. -/
theorem devPoke_leaves {o : DeviceId} {a : BusAddr} {v : Byte} {s u : State} {x : Bool}
    (h : devPoke o a v s = .next (x, u)) : AccessLeaves a s u := by
  unfold devPoke at h
  split at h
  · rw [(extPoke_next h).2.2]; exact .device _ _
  · split at h
    · simp only [Host.Outcome.next.injEq, Prod.mk.injEq] at h
      rw [← h.2]; exact .same
    · simpa using multiPoke_leaves ‹_› h

/-! ### The stream primitives -/

/-- A put keeps every item there was; it appends the new one exactly when it succeeds (R150). -/
theorem streamPut_items (item : StreamItem) (st : Stream) :
    (streamPut item st).2.items = if (streamPut item st).1 then st.items ++ [item] else st.items := by
  unfold streamPut
  split <;> simp

/-- The reference stream never fails a put (R150). -/
theorem streamPut_reference (item : StreamItem) (items : List StreamItem) :
    streamPut item { items := items, putFails := [], gets := [] } =
      (true, { items := items ++ [item], putFails := [], gets := [] }) := rfl

/-- A get on an exhausted stream signals (R150). -/
theorem streamGet_exhausted {α : Type} (kind : StreamItem → Option α) {st : Stream} (h : st.items = []) :
    streamGet kind st = (none, { st with gets := st.gets.drop 1 }) := by
  simp [streamGet, h]

/-- A get of an item of the other kind signals, and the item is gone (R150). -/
theorem streamGet_otherKind {α : Type} (kind : StreamItem → Option α) {st : Stream} {item : StreamItem}
    {rest : List StreamItem} (h : st.items = item :: rest) (hk : kind item = none) :
    streamGet kind st = (none, { st with items := rest, gets := st.gets.drop 1 }) := by
  simp [streamGet, h, hk]

/-- A get the stream serves returns the item and removes it (R150). -/
theorem streamGet_serves {α : Type} (kind : StreamItem → Option α) {st : Stream} {item : StreamItem} {x : α}
    {rest : List StreamItem} (h : st.items = item :: rest) (hk : kind item = some x)
    (hg : st.gets[0]? ∈ [none, some .serves]) :
    streamGet kind st = (some x, { st with items := rest, gets := st.gets.drop 1 }) := by
  have : st.gets.headD .serves = .serves := by
    cases hc : st.gets <;> simp_all
  simp only [streamGet, h, hk, this, List.drop_one]

/-- A get at which the stream itself signals (U4). -/
theorem streamGet_signals {α : Type} (kind : StreamItem → Option α) {st : Stream} {item : StreamItem} {x : α}
    {rest : List StreamItem} {r : Bool} (h : st.items = item :: rest) (hk : kind item = some x)
    (hg : st.gets[0]? = some (.signals r)) :
    streamGet kind st = (none, { st with items := if r then rest else item :: rest, gets := st.gets.drop 1 }) := by
  have : st.gets.headD .serves = .signals r := by
    cases hc : st.gets <;> simp_all
  simp only [streamGet, h, hk, this, List.drop_one]

/-- No get touches the puts to come. -/
theorem streamGet_putFails {α : Type} (kind : StreamItem → Option α) (st : Stream) :
    (streamGet kind st).2.putFails = st.putFails := by
  unfold streamGet
  split
  · rfl
  · split <;> rfl

end Sys2Proof.Machine
end

