-- ==== Sys2Proof/Laws/Exec.lean ====
section
/-! SUPPORT. Everything an operation can do, said once: `exec_changes` gives, for any operation that answers a next state, the
form of that state. Invariants and frames follow by cases on `Changes`, without unfolding any meaning again. -/

namespace Sys2Proof.Machine

/-- The address of an operation that may reach a device or a hotspot: READ, WRITE, M.PEEK, M.POKE. -/
def accessArg : Instr → Option Arg
  | .read a | .write a _ | .mPeekHotspot a | .mPeekWindow a | .mPeekLow a | .mPokeHotspot a _ | .mPokeWindow a _
  | .mPokeLow a _ => some a
  | _ => none

/-- The diagnostic line an operation can leave: only SAVE and LOAD can (R34). -/
def diagLineOf : Instr → Option DiagLine
  | .fSave _ | .mSave _ => some .save
  | .fLoad _ | .mLoad _ => some .load
  | _ => none

/-- The operations that select a bank directly, M.RESET, M.BANK and M.LOAD, each with the result it then hands back. -/
def SelectsBank (b : Banks) (i : Instr) (r : Reply) : Prop :=
  (i = .mReset ∧ r = .none) ∨ (∃ m, i = .mBank m ∧ b.bankLocked = false ∧ r = .bool true) ∨
  ∃ st st', i = .mLoad st ∧ r = .streamed true st'

/-- The forms of the state an operation leaves. -/
inductive Changes (s : State) : Instr → State → Prop where
  /-- Only the result. -/
  | answered (i : Instr) (r : Reply) : Changes s i (s.answer r)
  /-- A bus access or a direct call of the cartridge's peek or poke. -/
  | access (i : Instr) (a : Arg) (u : State) (r : Reply) (hi : accessArg i = some a)
      (hu : AccessLeaves (busAddr a) s u) (hr : ∀ ok st, r ≠ .streamed ok st) : Changes s i (u.answer r)
  /-- A stream failure. -/
  | streamError (i : Instr) (line : DiagLine) (st : Stream) (hi : diagLineOf i = some line) :
      Changes s i (streamFailed line st s)
  | setpage (p : Arg) (d : Desc) (q : PageIdx) (hq : pageArg? p = some q) :
      Changes s (.setpage p d) ({ s with pt := PageTable.set s.pt q d }.answer .none)
  | fConstruct (image : List Byte) (n : Nat) (hn : fixedCopied n ≤ image.length) :
      Changes s (.fConstruct image n)
        (constructed .fixed Config.tagFixed (Store.ofBytes (fixedStoreSize n) (image.take (fixedCopied n))) s)
  | mConstruct (image : List Byte) (hn : goodMultiImageSize image.length = true) :
      Changes s (.mConstruct image)
        (constructed (.multi { bankCount := image.length / Config.bankSize, bank := image.length / Config.bankSize - 1,
                               bankLocked := false, captured := freshCaptured s })
          Config.tagMulti (Store.ofBytes image.length image) s)
  | fInstall (hc : s.cart = .fixed) (hi : s.installed = false) :
      Changes s .fInstall ({ s with pt := PageTable.publish s.pt isWindowPage (fixedWinDesc s.store.size),
                                    installed := true }.answer .none)
  | mInstall (b : Banks) (hc : s.cart = .multi b) (hi : s.installed = false) (ho : installObstacle s.pt = none) :
      Changes s .mInstall ((selectBank b.startBank { b with captured := captureAll s.pt }
        { s with pt := PageTable.publish s.pt isHotspotPage (fun _ => hotDesc), installed := true }).answer .none)
  /-- M.BANK, M.RESET or M.LOAD selecting a bank. -/
  | select (i : Instr) (b : Banks) (n : Nat) (r : Reply) (hi : SelectsBank b i r) (hc : s.cart = .multi b)
      (hs : s.installed = true) (hn : 1 ≤ b.bankCount → n < b.bankCount) : Changes s i ((selectBank n b s).answer r)
  | fReset (hc : s.cart = .fixed) : Changes s .fReset (s.raiseBankChanged.answer .none)
  | fPatch (a : Arg) (v : Byte) (hc : s.cart = .fixed) :
      Changes s (.fPatch a v) (patchAt (fixedOffset s.store.size a.toNat) v s)
  | mPatch (a : Arg) (v : Byte) (b : Banks) (hc : s.cart = .multi b) :
      Changes s (.mPatch a v) (patchAt (bankOffset b.bank a.toNat) v s)
  | lockbank (b : Banks) (hc : s.cart = .multi b) :
      Changes s .lockbank ({ s with cart := .multi { b with bankLocked := true } }.answer .none)
  | unlockbank (b : Banks) (hc : s.cart = .multi b) :
      Changes s .unlockbank ({ s with cart := .multi { b with bankLocked := false } }.answer .none)
  | clear : Changes s .clearbankchanged (s.dropBankChanged.answer .none)

theorem next_inj {s t : State} (h : (Host.Outcome.next s : Host.Outcome State Fault Refusal) = .next t) : s = t := by
  injection h

theorem execRead_changes {a : Arg} {s t : State} (h : execRead a s = .next t) : Changes s (.read a) t := by
  unfold execRead at h
  split at h
  · cases h
  · obtain ⟨x, u, hu, rfl⟩ := deliver_next h
    exact .access _ a u _ rfl (devPeek_leaves hu) (by simp)

theorem execWrite_changes {a : Arg} {v : Byte} {s t : State} (h : execWrite a v s = .next t) :
    Changes s (.write a v) t := by
  unfold execWrite at h
  split at h
  · cases h
  · obtain ⟨x, u, hu, rfl⟩ := deliver_next h
    exact .access _ a u _ rfl (devPoke_leaves hu) (by simp)

theorem execGetpage_changes {p : Arg} {s t : State} (h : execGetpage p s = .next t) : Changes s (.getpage p) t := by
  unfold execGetpage at h
  split at h
  · cases h
  · rw [← next_inj h]; exact .answered _ _

theorem execSetpage_changes {p : Arg} {d : Desc} {s t : State} (h : execSetpage p d s = .next t) :
    Changes s (.setpage p d) t := by
  unfold execSetpage at h
  split at h
  · cases h
  · rw [← next_inj h]; exact .setpage p d _ ‹_›

theorem execFConstruct_changes {image : List Byte} {n : Nat} {s t : State} (h : execFConstruct image n s = .next t) :
    Changes s (.fConstruct image n) t := by
  unfold execFConstruct at h
  split at h
  · cases h
  · rw [← next_inj h]; exact .fConstruct image n (by omega)

theorem execMConstruct_changes {image : List Byte} {s t : State} (h : execMConstruct image s = .next t) :
    Changes s (.mConstruct image) t := by
  unfold execMConstruct at h
  split at h
  · rw [← next_inj h]; exact .mConstruct image ‹_›
  · cases h

theorem execFInstall_changes {s t : State} (h : execFInstall s = .next t) : Changes s .fInstall t := by
  obtain ⟨hc, h⟩ := onFixed_next h
  split at h
  · cases h
  · rw [← next_inj h]; exact .fInstall hc (eq_false_of_ne_true ‹_›)

theorem execMInstall_changes {s t : State} (h : execMInstall s = .next t) : Changes s .mInstall t := by
  obtain ⟨b, hc, h⟩ := onMulti_next h
  split at h
  · cases h
  · split at h
    · cases h
    · rw [← next_inj h]; exact .mInstall b hc (eq_false_of_ne_true ‹_›) ‹_›

theorem execMReset_changes {s t : State} (h : execMReset s = .next t) : Changes s .mReset t := by
  obtain ⟨b, hc, h⟩ := onMulti_next h
  split at h
  · rw [← next_inj h]
    exact .select _ b _ _ (.inl ⟨rfl, rfl⟩) hc ‹_› fun h1 => by simp only [Banks.startBank]; omega
  · cases h

theorem execMPeek_changes {i : Instr} {a : Arg} {s t : State} (hi : accessArg i = some a)
    (h : onMulti s (fun b => deliver .byte (multiPeek a b s)) = .next t) : Changes s i t := by
  obtain ⟨b, hc, h⟩ := onMulti_next h
  obtain ⟨x, u, hu, rfl⟩ := deliver_next h
  exact .access _ a u _ hi (multiPeek_leaves hc hu) (by simp)

theorem execMPoke_changes {i : Instr} {a : Arg} {v : Byte} {s t : State} (hi : accessArg i = some a)
    (h : onMulti s (fun b => deliver .bool (multiPoke a v b s)) = .next t) : Changes s i t := by
  obtain ⟨b, hc, h⟩ := onMulti_next h
  obtain ⟨x, u, hu, rfl⟩ := deliver_next h
  exact .access _ a u _ hi (multiPoke_leaves hc hu) (by simp)

theorem execMBank_changes {n : Arg} {s t : State} (h : execMBank n s = .next t) : Changes s (.mBank n) t := by
  obtain ⟨b, hc, h⟩ := onMulti_next h
  split at h
  · rcases tryBank_cases n.toNat b s with ⟨hl, ht⟩ | ⟨hl, ht⟩ <;> rw [ht, deliver_of_next] at h <;> rw [← next_inj h]
    · exact .answered _ _
    · exact .select _ b _ _ (.inr (.inl ⟨n, rfl, hl, rfl⟩)) hc ‹_› fun h1 => Nat.mod_lt _ (by omega)
  · cases h

theorem fixedAnswer_changes {i : Instr} {r : Reply} {s t : State} (h : onFixed s (.next (s.answer r)) = .next t) :
    Changes s i t := by
  rw [← next_inj (onFixed_next h).2]; exact .answered _ _

theorem multiAnswer_changes {i : Instr} {r : Banks → Reply} {s t : State}
    (h : onMulti s (fun b => .next (s.answer (r b))) = .next t) : Changes s i t := by
  obtain ⟨b, _, h⟩ := onMulti_next h
  rw [← next_inj h]; exact .answered _ _

theorem execFSave_changes {st : Stream} {s t : State} (h : execFSave st s = .next t) : Changes s (.fSave st) t := by
  obtain ⟨_, h⟩ := onFixed_next h
  split at h <;> rw [← next_inj h]
  · exact .streamError _ _ _ rfl
  · exact .answered _ _

theorem execMSave_changes {st : Stream} {s t : State} (h : execMSave st s = .next t) : Changes s (.mSave st) t := by
  obtain ⟨b, _, h⟩ := onMulti_next h
  split at h
  · rw [← next_inj h]; exact .streamError _ _ _ rfl
  · split at h <;> rw [← next_inj h]
    · exact .streamError _ _ _ rfl
    · exact .answered _ _

theorem execFLoad_changes {st : Stream} {s t : State} (h : execFLoad st s = .next t) : Changes s (.fLoad st) t := by
  obtain ⟨_, h⟩ := onFixed_next h
  split at h <;> rw [← next_inj h]
  · exact .streamError _ _ _ rfl
  · exact .answered _ _

theorem execMLoad_changes {st : Stream} {s t : State} (h : execMLoad st s = .next t) : Changes s (.mLoad st) t := by
  obtain ⟨b, hc, h⟩ := onMulti_next h
  split at h
  · split at h
    · rw [← next_inj h]; exact .streamError _ _ _ rfl
    · split at h
      · split at h <;> rw [← next_inj h]
        · exact .streamError _ _ _ rfl
        · exact .select _ b _ _ (.inr (.inr ⟨st, _, rfl, rfl⟩)) hc ‹_› fun h1 => Nat.mod_lt _ (by omega)
      · rw [← next_inj h]; exact .answered _ _
  · cases h

/-- Everything an operation can do. -/
theorem exec_changes {i : Instr} {s t : State} (h : exec i s = .next t) : Changes s i t := by
  cases i with
  | read a => exact execRead_changes h
  | write a v => exact execWrite_changes h
  | getpage p => exact execGetpage_changes h
  | setpage p d => exact execSetpage_changes h
  | fConstruct image n => exact execFConstruct_changes h
  | mConstruct image => exact execMConstruct_changes h
  | fInstall => exact execFInstall_changes h
  | mInstall => exact execMInstall_changes h
  | fReset => obtain ⟨hc, h⟩ := onFixed_next h; rw [← next_inj h]; exact .fReset hc
  | mReset => exact execMReset_changes h
  | fPeek a => exact fixedAnswer_changes h
  | mPeekHotspot a => exact execMPeek_changes rfl h
  | mPeekWindow a => exact execMPeek_changes rfl h
  | mPeekLow a => exact execMPeek_changes rfl h
  | fPoke a v => exact fixedAnswer_changes h
  | mPokeHotspot a v => exact execMPoke_changes rfl h
  | mPokeWindow a v => exact execMPoke_changes rfl h
  | mPokeLow a v => exact execMPoke_changes rfl h
  | fPatch a v => obtain ⟨hc, h⟩ := onFixed_next h; rw [← next_inj h]; exact .fPatch a v hc
  | mPatch a v => obtain ⟨b, hc, h⟩ := onMulti_next h; rw [← next_inj h]; exact .mPatch a v b hc
  | fBank b => exact fixedAnswer_changes h
  | mBank n => exact execMBank_changes h
  | fGetbank => exact fixedAnswer_changes h
  | mGetbank => exact multiAnswer_changes (r := fun b => .number b.bank) h
  | fBankcount => exact fixedAnswer_changes h
  | mBankcount => exact multiAnswer_changes (r := fun b => .number b.bankCount) h
  | fGetimage => exact fixedAnswer_changes h
  | mGetimage => exact multiAnswer_changes (r := fun _ => .image s.store s.store.size) h
  | fTag => exact fixedAnswer_changes h
  | mTag => exact multiAnswer_changes (r := fun _ => .text s.tag) h
  | fSave st => exact execFSave_changes h
  | mSave st => exact execMSave_changes h
  | fLoad st => exact execFLoad_changes h
  | mLoad st => exact execMLoad_changes h
  | lockbank => obtain ⟨b, hc, h⟩ := onMulti_next h; rw [← next_inj h]; exact .lockbank b hc
  | unlockbank => obtain ⟨b, hc, h⟩ := onMulti_next h; rw [← next_inj h]; exact .unlockbank b hc
  | bankchanged => rw [← next_inj h]; exact .answered _ _
  | clearbankchanged => rw [← next_inj h]; exact .clear

/-! ### Fetching and stepping -/

theorem fetch_nil {s : State} (h : s.pending = []) : fetch s = none := by simp [fetch, h]

theorem fetch_cons {s : State} {t : Transaction} {rest : List Transaction} (h : s.pending = t :: rest) :
    fetch s = some (t, { s with pending := rest }) := by simp [fetch, h]

/-- Everything a step can do: nothing was issued, or the operation issued longest ago ran. -/
theorem step_next {s t : State} (h : step s = .next t) :
    (s.pending = [] ∧ t = s) ∨
    (∃ tx rest i, s.pending = tx :: rest ∧ decode s.variant tx = .instr i ∧
      exec i { s with pending := rest } = .next t) := by
  cases hp : s.pending with
  | nil =>
    simp only [step, fetch_nil hp] at h
    exact .inl ⟨rfl, (next_inj h).symm⟩
  | cons tx rest =>
    simp only [step, fetch_cons hp] at h
    split at h
    · exact .inr ⟨tx, rest, _, rfl, ‹_›, h⟩
    · cases h

end Sys2Proof.Machine
end

