-- ==== Sys2Proof/Laws/PerInstr.lean ====
section
/-! SUPPORT. Statements made once per instruction, about the instruction as syntax. `EncodingMatchesTable`: the encoded word of
a well-formed instruction has the fixed bits of its row of spec/opcode_table.json. -/

namespace Sys2Proof.Laws.EncodingMatchesTable

open Sys2Proof

/-- The "mask" column of spec/opcode_table.json. -/
def rowMask : Instr → TxWord
  | .mPeekHotspot _ | .mPeekLow _ | .mPokeHotspot _ _ | .mPokeLow _ _ => 0xFF180000#32
  | .mPeekWindow _ | .mPokeWindow _ _ => 0xFF100000#32
  | _ => 0xFF000000#32

/-- The "match" column of spec/opcode_table.json. -/
def rowMatch : Instr → TxWord
  | .read _ => 0x00000000#32
  | .write _ _ => 0x01000000#32
  | .getpage _ => 0x02000000#32
  | .setpage _ _ => 0x03000000#32
  | .fConstruct _ _ => 0x0F000000#32
  | .mConstruct _ => 0x0F000000#32
  | .fInstall => 0x10000000#32
  | .mInstall => 0x10000000#32
  | .fReset => 0x11000000#32
  | .mReset => 0x11000000#32
  | .fPeek _ => 0x12000000#32
  | .mPeekHotspot _ => 0x12080000#32
  | .mPeekWindow _ => 0x12100000#32
  | .mPeekLow _ => 0x12000000#32
  | .fPoke _ _ => 0x13000000#32
  | .mPokeHotspot _ _ => 0x13080000#32
  | .mPokeWindow _ _ => 0x13100000#32
  | .mPokeLow _ _ => 0x13000000#32
  | .fPatch _ _ => 0x14000000#32
  | .mPatch _ _ => 0x14000000#32
  | .fBank _ => 0x15000000#32
  | .mBank _ => 0x15000000#32
  | .fGetbank => 0x16000000#32
  | .mGetbank => 0x16000000#32
  | .fBankcount => 0x17000000#32
  | .mBankcount => 0x17000000#32
  | .fGetimage => 0x18000000#32
  | .mGetimage => 0x18000000#32
  | .fTag => 0x19000000#32
  | .mTag => 0x19000000#32
  | .fSave _ => 0x1A000000#32
  | .mSave _ => 0x1A000000#32
  | .fLoad _ => 0x1B000000#32
  | .mLoad _ => 0x1B000000#32
  | .lockbank => 0x20000000#32
  | .unlockbank => 0x21000000#32
  | .bankchanged => 0x22000000#32
  | .clearbankchanged => 0x23000000#32

/-- The encoded word has the row's fixed bits. -/
def Statement (i : Instr) : Prop := i.wf = true → (encode i).word &&& rowMask i = rowMatch i

/-- A row that fixes only the selector: the word under the mask is the selector above 24 zero bits. -/
theorem sel_only (sel : BitVec 8) (arg : Arg) (data : Byte) :
    mkWord sel arg data &&& 0xFF000000#32 = mkWord sel 0 0 := by
  refine BitVec.eq_of_getLsbD_eq fun i hi => ?_
  have hm : (0xFF000000#32).getLsbD i = decide (24 ≤ i) := by
    have : ∀ i : Fin 32, (0xFF000000#32).getLsbD i.1 = decide (24 ≤ i.1) := by decide
    exact this ⟨i, hi⟩
  rw [BitVec.getLsbD_and, mkWord_getLsbD, mkWord_getLsbD, hm]
  by_cases h : 24 ≤ i
  · rw [if_neg (by omega), if_neg (by omega), if_neg (by omega), if_neg (by omega), decide_eq_true h, Bool.and_true]
  · rw [decide_eq_false h, Bool.and_false]
    split
    · simp
    · rw [if_pos (by omega)]; simp

/-- The region bits of an address operand are word bits 20 and 19 (R81): the word under a region mask. -/
theorem sel_region (sel : BitVec 8) (arg : Arg) (data : Byte) (m : Arg) :
    mkWord sel arg data &&& mkWord 0xFF#8 m 0 = mkWord sel (arg &&& m) 0 := by
  refine BitVec.eq_of_getLsbD_eq fun i hi => ?_
  rw [BitVec.getLsbD_and, mkWord_getLsbD, mkWord_getLsbD, mkWord_getLsbD]
  split
  · simp
  · split
    · simp
    · have : ∀ j : Fin 8, (0xFF#8).getLsbD j.1 = true := by decide
      rw [this ⟨i - 8 - 16, by omega⟩, Bool.and_true]

theorem region_hotspot : ∀ a : BusAddr, Machine.inHotspot a = true → a &&& 0x1800#13 = 0x0800#13 := by decide +kernel
theorem region_window : ∀ a : BusAddr, Machine.inWindow a = true → a &&& 0x1000#13 = 0x1000#13 := by decide +kernel
theorem region_low : ∀ a : BusAddr, (!Machine.inHotspot a && !Machine.inWindow a) = true → a &&& 0x1800#13 = 0#13 := by
  decide +kernel

theorem and_setWidth (a : Arg) (m : BusAddr) : a &&& m.setWidth 16 = (Machine.busAddr a &&& m).setWidth 16 := by
  refine BitVec.eq_of_getLsbD_eq fun i hi => ?_
  simp only [Machine.busAddr, BitVec.getLsbD_and, BitVec.getLsbD_setWidth, hi, decide_true, Bool.true_and]
  by_cases h : i < 13
  · simp [h]
  · have : m.getLsbD i = false := BitVec.getLsbD_of_ge _ _ (by omega)
    simp [h, this]

/-- A hotspot address in the word (R81). -/
theorem word_hotspot {a : Arg} (h : Machine.inHotspot (Machine.busAddr a) = true) (sel : BitVec 8) (v : Byte) :
    mkWord sel a v &&& 0xFF180000#32 = mkWord sel 0x0800#16 0 := by
  rw [show (0xFF180000#32 : TxWord) = mkWord 0xFF#8 (BitVec.setWidth 16 (0x1800#13)) 0 by decide, sel_region, and_setWidth,
    region_hotspot _ h]
  rfl

/-- A window address in the word (R81). -/
theorem word_window {a : Arg} (h : Machine.inWindow (Machine.busAddr a) = true) (sel : BitVec 8) (v : Byte) :
    mkWord sel a v &&& 0xFF100000#32 = mkWord sel 0x1000#16 0 := by
  rw [show (0xFF100000#32 : TxWord) = mkWord 0xFF#8 (BitVec.setWidth 16 (0x1000#13)) 0 by decide, sel_region, and_setWidth,
    region_window _ h]
  rfl

/-- An address of 0x0000 .. 0x07FF in the word (R81). -/
theorem word_low {a : Arg} (h : (!Machine.inHotspot (Machine.busAddr a) && !Machine.inWindow (Machine.busAddr a)) = true)
    (sel : BitVec 8) (v : Byte) : mkWord sel a v &&& 0xFF180000#32 = mkWord sel 0 0 := by
  rw [show (0xFF180000#32 : TxWord) = mkWord 0xFF#8 (BitVec.setWidth 16 (0x1800#13)) 0 by decide, sel_region, and_setWidth,
    region_low _ h]
  rfl

theorem read (a : Arg) : Statement (.read a) := fun _ => (sel_only _ _ _).trans (by simp only [Instr.sel, rowMatch]; decide)
theorem write (a : Arg) (v : Byte) : Statement (.write a v) := fun _ => (sel_only _ _ _).trans (by simp only [Instr.sel, rowMatch]; decide)
theorem getpage (p : Arg) : Statement (.getpage p) := fun _ => (sel_only _ _ _).trans (by simp only [Instr.sel, rowMatch]; decide)
theorem setpage (p : Arg) (d : Desc) : Statement (.setpage p d) := fun _ => (sel_only _ _ _).trans (by simp only [Instr.sel, rowMatch]; decide)
theorem fConstruct (image : List Byte) (n : Nat) : Statement (.fConstruct image n) := fun _ => (sel_only _ _ _).trans (by simp only [Instr.sel, rowMatch]; decide)
theorem mConstruct (image : List Byte) : Statement (.mConstruct image) := fun _ => (sel_only _ _ _).trans (by simp only [Instr.sel, rowMatch]; decide)
theorem fInstall : Statement .fInstall := fun _ => (sel_only _ _ _).trans (by decide)
theorem mInstall : Statement .mInstall := fun _ => (sel_only _ _ _).trans (by decide)
theorem fReset : Statement .fReset := fun _ => (sel_only _ _ _).trans (by decide)
theorem mReset : Statement .mReset := fun _ => (sel_only _ _ _).trans (by decide)
theorem fPeek (a : Arg) : Statement (.fPeek a) := fun _ => (sel_only _ _ _).trans (by simp only [Instr.sel, rowMatch]; decide)
theorem mPeekHotspot (a : Arg) : Statement (.mPeekHotspot a) := fun h => (word_hotspot h _ _).trans (by simp only [Instr.sel, rowMatch]; decide)
theorem mPeekWindow (a : Arg) : Statement (.mPeekWindow a) := fun h => (word_window h _ _).trans (by simp only [Instr.sel, rowMatch]; decide)
theorem mPeekLow (a : Arg) : Statement (.mPeekLow a) := fun h => (word_low h _ _).trans (by simp only [Instr.sel, rowMatch]; decide)
theorem fPoke (a : Arg) (v : Byte) : Statement (.fPoke a v) := fun _ => (sel_only _ _ _).trans (by simp only [Instr.sel, rowMatch]; decide)
theorem mPokeHotspot (a : Arg) (v : Byte) : Statement (.mPokeHotspot a v) := fun h => (word_hotspot h _ _).trans (by simp only [Instr.sel, rowMatch]; decide)
theorem mPokeWindow (a : Arg) (v : Byte) : Statement (.mPokeWindow a v) := fun h => (word_window h _ _).trans (by simp only [Instr.sel, rowMatch]; decide)
theorem mPokeLow (a : Arg) (v : Byte) : Statement (.mPokeLow a v) := fun h => (word_low h _ _).trans (by simp only [Instr.sel, rowMatch]; decide)
theorem fPatch (a : Arg) (v : Byte) : Statement (.fPatch a v) := fun _ => (sel_only _ _ _).trans (by simp only [Instr.sel, rowMatch]; decide)
theorem mPatch (a : Arg) (v : Byte) : Statement (.mPatch a v) := fun _ => (sel_only _ _ _).trans (by simp only [Instr.sel, rowMatch]; decide)
theorem fBank (b : Arg) : Statement (.fBank b) := fun _ => (sel_only _ _ _).trans (by simp only [Instr.sel, rowMatch]; decide)
theorem mBank (b : Arg) : Statement (.mBank b) := fun _ => (sel_only _ _ _).trans (by simp only [Instr.sel, rowMatch]; decide)
theorem fGetbank : Statement .fGetbank := fun _ => (sel_only _ _ _).trans (by decide)
theorem mGetbank : Statement .mGetbank := fun _ => (sel_only _ _ _).trans (by decide)
theorem fBankcount : Statement .fBankcount := fun _ => (sel_only _ _ _).trans (by decide)
theorem mBankcount : Statement .mBankcount := fun _ => (sel_only _ _ _).trans (by decide)
theorem fGetimage : Statement .fGetimage := fun _ => (sel_only _ _ _).trans (by decide)
theorem mGetimage : Statement .mGetimage := fun _ => (sel_only _ _ _).trans (by decide)
theorem fTag : Statement .fTag := fun _ => (sel_only _ _ _).trans (by decide)
theorem mTag : Statement .mTag := fun _ => (sel_only _ _ _).trans (by decide)
theorem fSave (st : Stream) : Statement (.fSave st) := fun _ => (sel_only _ _ _).trans (by simp only [Instr.sel, rowMatch]; decide)
theorem mSave (st : Stream) : Statement (.mSave st) := fun _ => (sel_only _ _ _).trans (by simp only [Instr.sel, rowMatch]; decide)
theorem fLoad (st : Stream) : Statement (.fLoad st) := fun _ => (sel_only _ _ _).trans (by simp only [Instr.sel, rowMatch]; decide)
theorem mLoad (st : Stream) : Statement (.mLoad st) := fun _ => (sel_only _ _ _).trans (by simp only [Instr.sel, rowMatch]; decide)
theorem lockbank : Statement .lockbank := fun _ => (sel_only _ _ _).trans (by decide)
theorem unlockbank : Statement .unlockbank := fun _ => (sel_only _ _ _).trans (by decide)
theorem bankchanged : Statement .bankchanged := fun _ => (sel_only _ _ _).trans (by decide)
theorem clearbankchanged : Statement .clearbankchanged := fun _ => (sel_only _ _ _).trans (by decide)

end Sys2Proof.Laws.EncodingMatchesTable
end

