-- ==== Sys2Proof/Laws/Safety.lean ====
section
/-! SUPPORT. Small laws of the terms of Safety.lean: what the invariant and table coherence depend on. -/

namespace Sys2Proof.Machine

/-- The window descriptors depend on the cartridge and the store's size alone. -/
theorem State.winDesc_congr {s t : State} (hc : t.cart = s.cart) (hs : t.store.size = s.store.size) :
    t.winDesc = s.winDesc := by
  funext p; simp only [State.winDesc, hc, hs]

/-- The invariant depends on the cartridge, the tag, the store and `installed` alone. -/
theorem State.Inv.congr {s t : State} (h : s.Inv) (hc : t.cart = s.cart) (hg : t.tag = s.tag) (hs : t.store = s.store)
    (hi : t.installed = s.installed) : t.Inv := by
  obtain ⟨h1, h2, h3, h4, h5⟩ := h
  refine ⟨by rw [hs]; exact h1, by rw [hs]; exact h2, by rw [hs, hc]; exact h3, ?_, by rw [hi, hc]; exact h5⟩
  rw [hg, h4, State.variant, State.variant, hc]

/-- Coherence depends on the table, the cartridge, the store's size and `installed` alone. -/
theorem State.Coherent.congr {s t : State} (h : s.Coherent) (hp : t.pt = s.pt) (hc : t.cart = s.cart)
    (hs : t.store.size = s.store.size) (hi : t.installed = s.installed) : t.Coherent := by
  refine ⟨fun h1 p hw => ?_, fun h1 h2 p hw => ?_⟩
  · rw [hp, State.winDesc_congr hc hs]; exact h.window (hi ▸ h1) p hw
  · rw [hp]; exact h.hotspot (hi ▸ h1) (by rw [← h2, State.variant, State.variant, hc]) p hw

theorem State.Inv.bankCount_pos {s : State} (h : s.Inv) {b : Banks} (hc : s.cart = .multi b) : 1 ≤ b.bankCount := by
  have := h.shape
  rw [hc] at this
  exact this.1

/-- The cartridge owns every window descriptor (R111, R132). -/
theorem State.winDesc_owner (s : State) (p : PageIdx) : (s.winDesc p).owner = .cart := by
  unfold State.winDesc; split <;> rfl

/-- Where a coherent table sends a window address. -/
theorem State.Coherent.window_entry {s : State} (h : s.Coherent) (hi : s.installed = true) {a : BusAddr}
    (hw : inWindow a = true) : PageTable.get s.pt (pageOf a) = .mapped (s.winDesc (pageOf a)) :=
  h.window hi _ (by rw [isWindowPage_pageOf]; exact hw)

/-- Where a coherent table sends a hotspot address of a Multi system. -/
theorem State.Coherent.hotspot_entry {s : State} (h : s.Coherent) (hi : s.installed = true) {b : Banks}
    (hc : s.cart = .multi b) {a : BusAddr} (hh : inHotspot a = true) :
    PageTable.get s.pt (pageOf a) = .mapped hotDesc :=
  h.hotspot hi (State.variant_of_multi hc) _ (by rw [isHotspotPage_pageOf]; exact hh)

end Sys2Proof.Machine
end

