-- ==== Sys2Proof/Tests/Slice0.lean ====
section
/-! SUPPORT. The author's own tests and, for every statement with hypotheses, a witness that meets them. Expected results are
those of 95_test_vectors.md (cited as TV) or follow by hand from the rule cited. -/

namespace Sys2Proof.Tests

open Sys2Proof Sys2Proof.Machine

set_option Elab.async false

/-! ### Well-formedness: one ill-formed term for each check -/

theorem test_wf_rejects_hotspot_peek_of_window : Instr.wf (.mPeekHotspot 0x1000) = false := by decide
theorem test_wf_rejects_window_peek_of_hotspot : Instr.wf (.mPeekWindow 0x0FFF) = false := by decide
theorem test_wf_rejects_low_peek_of_hotspot : Instr.wf (.mPeekLow 0x0800) = false := by decide
theorem test_wf_rejects_hotspot_poke_of_low : Instr.wf (.mPokeHotspot 0x07FF 0) = false := by decide
theorem test_wf_rejects_window_poke_of_low : Instr.wf (.mPokeWindow 0x2000 0) = false := by decide
theorem test_wf_rejects_low_poke_of_window : Instr.wf (.mPokeLow 0x1FFF 0) = false := by decide
theorem test_existsIn_rejects_lock_in_fixed : Instr.existsIn .fixed .lockbank = false := by decide
theorem test_existsIn_rejects_fixed_peek_in_multi : Instr.existsIn .multi (.fPeek 0) = false := by decide

/-! ### Decoding: the words of 30_encoding.md R80, R81 (`sel << 24 | arg << 8 | data`), written out -/

/-- What the decoder makes of a bare word. -/
def dec (v : Variant) (w : TxWord) : Decoded := decode v { word := w, beside := Beside.empty }

/-- TV P1 row 4. -/
theorem test_decode_read : dec .fixed 0x00100000 = .instr (.read 0x1000) := by decide
/-- TV P2 row 7. -/
theorem test_decode_write : dec .multi 0x0108005A = .instr (.write 0x0800 0x5A) := by decide
/-- TV P1 row 19. -/
theorem test_decode_getpage : dec .fixed 0x02005F00 = .instr (.getpage 0x005F) := by decide
/-- The last word of INSTALLDEV 0,0,63 (TV section 3). -/
theorem test_decode_setpage : dec .multi 0x03003F00 = .instr (.setpage 0x003F (extDesc 0)) := by decide
/-- TV P4 row 0, the variant beside the word. -/
theorem test_decode_fConstruct :
    decode .multi { word := 0x0F000000, beside := { Beside.empty with variant := .fixed, image := [7], requestedSize := 1 } } =
      .instr (.fConstruct [7] 1) := by decide
/-- TV P2 row 0. -/
theorem test_decode_mConstruct :
    decode .fixed { word := 0x0F000000, beside := { Beside.empty with variant := .multi, image := [7] } } =
      .instr (.mConstruct [7]) := by decide
/-- TV P1 row 2 and P2 row 2. -/
theorem test_decode_install : dec .fixed 0x10000000 = .instr .fInstall ∧ dec .multi 0x10000000 = .instr .mInstall := by decide
/-- TV P1 row 3 and P2 row 3. -/
theorem test_decode_reset : dec .fixed 0x11000000 = .instr .fReset ∧ dec .multi 0x11000000 = .instr .mReset := by decide
/-- R81: the masks and matches of the PEEK rows. -/
theorem test_decode_peek :
    dec .fixed 0x12180000 = .instr (.fPeek 0x1800) ∧ dec .multi 0x120FFF00 = .instr (.mPeekHotspot 0x0FFF) ∧
    dec .multi 0x12100500 = .instr (.mPeekWindow 0x1005) ∧ dec .multi 0x1207FF00 = .instr (.mPeekLow 0x07FF) := by decide
/-- R81: the POKE rows; 0x2800 aliases to the hotspot region (R135). -/
theorem test_decode_poke :
    dec .fixed 0x131000FF = .instr (.fPoke 0x1000 0xFF) ∧ dec .multi 0x13280011 = .instr (.mPokeHotspot 0x2800 0x11) ∧
    dec .multi 0x131FFF22 = .instr (.mPokeWindow 0x1FFF 0x22) ∧ dec .multi 0x13000033 = .instr (.mPokeLow 0 0x33) := by decide
/-- TV P1 row 12 and P2 row 12. -/
theorem test_decode_patch :
    dec .fixed 0x141800AB = .instr (.fPatch 0x1800 0xAB) ∧ dec .multi 0x141000AB = .instr (.mPatch 0x1000 0xAB) := by decide
/-- TV P3 row 0. -/
theorem test_decode_bank : dec .fixed 0x15000100 = .instr (.fBank 1) ∧ dec .multi 0x15000600 = .instr (.mBank 6) := by decide
/-- TV P1 row 16 and P2 row 4. -/
theorem test_decode_getbank : dec .fixed 0x16000000 = .instr .fGetbank ∧ dec .multi 0x16000000 = .instr .mGetbank := by decide
/-- R81. -/
theorem test_decode_bankcount :
    dec .fixed 0x17000000 = .instr .fBankcount ∧ dec .multi 0x17000000 = .instr .mBankcount := by decide
/-- TV P4 row 10. -/
theorem test_decode_getimage :
    dec .fixed 0x18000000 = .instr .fGetimage ∧ dec .multi 0x18000000 = .instr .mGetimage := by decide
/-- R81. -/
theorem test_decode_tag : dec .fixed 0x19000000 = .instr .fTag ∧ dec .multi 0x19000000 = .instr .mTag := by decide
/-- TV P3 rows 6 and 9. -/
theorem test_decode_save_load :
    dec .fixed 0x1A000000 = .instr (.fSave Beside.empty.stream) ∧ dec .multi 0x1A000000 = .instr (.mSave Beside.empty.stream) ∧
    dec .fixed 0x1B000000 = .instr (.fLoad Beside.empty.stream) ∧
    dec .multi 0x1B000000 = .instr (.mLoad Beside.empty.stream) := by decide
/-- TV P3 rows 1, 3, 5, 13. -/
theorem test_decode_controls :
    dec .multi 0x20000000 = .instr .lockbank ∧ dec .multi 0x21000000 = .instr .unlockbank ∧
    dec .fixed 0x22000000 = .instr .bankchanged ∧ dec .multi 0x23000000 = .instr .clearbankchanged := by decide
/-- R92: the selectors beside the assigned ones, and the lock of a Fixed cartridge. -/
theorem test_decode_rejects :
    dec .multi 0x04000000 = .rejected (.unassignedSelector 0x04) ∧ dec .multi 0x0E000000 = .rejected (.unassignedSelector 0x0E) ∧
    dec .fixed 0x1C000000 = .rejected (.unassignedSelector 0x1C) ∧ dec .multi 0x24000000 = .rejected (.unassignedSelector 0x24) ∧
    dec .fixed 0x20000000 = .rejected (.notInFixedVariant 0x20) ∧ dec .fixed 0x21000000 = .rejected (.notInFixedVariant 0x21) := by
  decide

/-! ### Small states -/

/-- Pages 0 .. 63 owned by external device 0, the rest Unmapped: `INSTALLDEV 0,0,63` from power-on. -/
def deviceTable : PageTable := PageTable.publish PageTable.empty (fun p => !isWindowPage p) (fun _ => extDesc 0)

/-- A Fixed system after boot (R195), with a 64-byte store that begins as TV's IMG2K does. -/
def fixedBoot : State :=
  { State.reset with
    pt := PageTable.publish deviceTable isWindowPage (fixedWinDesc 64), cart := .fixed, tag := Config.tagFixed,
    store := { size := 64, cells := [(0, 0x4C), (1, 0x4D)] }, bankChanged := true, installed := true, constructs := 1 }

/-- A Fixed system before F.INSTALL, with the devices installed. -/
def fixedFresh : State := { fixedBoot with pt := deviceTable, bankChanged := false, installed := false }

/-- Four banks, the top one active, every captured slot external device 0. -/
def fourBanks : Banks :=
  { bankCount := 4, bank := 3, bankLocked := false, captured := Vector.replicate 32 (extDesc 0) }

/-- The table of a booted four-bank system. -/
def multiTable : PageTable :=
  PageTable.publish (PageTable.publish deviceTable isHotspotPage (fun _ => hotDesc)) isWindowPage (multiWinDesc 3)

/-- A four-bank Multi system after boot (R195), holding some bytes of TV's IMG4. -/
def multiBoot : State :=
  { State.reset with
    pt := multiTable, cart := .multi fourBanks,
    store := { size := 16384, cells := [(5, 0x05), (0x1005, 0x45), (0x2000, 0x80), (0x3000, 0xC0)] },
    bankChanged := true, installed := true, constructs := 1 }

/-- The same, locked and with the flag cleared. -/
def multiLocked : State :=
  { multiBoot with cart := .multi { fourBanks with bankLocked := true }, bankChanged := false }

/-- The same before M.INSTALL, with the devices installed. -/
def multiFresh : State := { multiBoot with pt := deviceTable, bankChanged := false, installed := false }

/-- A captured slot names the cartridge: no run reaches this state (R145). -/
def multiSelf : State :=
  { multiBoot with cart := .multi { fourBanks with captured := Vector.replicate 32 hotDesc } }

/-- The state an outcome goes on with. -/
def nextOf : Host.Outcome State Fault Refusal → Option State
  | .next s => some s
  | .fault _ | .refused _ => none

/-- One observation of the state after `i`. -/
def after {α : Type} (i : Instr) (s : State) (f : State → α) : Option α := (nextOf (exec i s)).map f

/-- An operation that has been observed has completed. -/
theorem next_of_after {α : Type} {i : Instr} {s : State} {f : State → α} {x : α} (h : after i s f = some x) :
    ∃ t, exec i s = .next t ∧ f t = x := by
  unfold after at h
  cases he : exec i s with
  | next t => rw [he] at h; exact ⟨t, rfl, by simpa [nextOf] using h⟩
  | fault e => rw [he] at h; cases h
  | refused e => rw [he] at h; cases h

/-- `bank`. -/
def bankOf (s : State) : Option Nat :=
  match s.cart with
  | .fixed => none
  | .multi b => some b.bank

/-- `bankLocked`. -/
def lockOf (s : State) : Option Bool :=
  match s.cart with
  | .fixed => none
  | .multi b => some b.bankLocked

/-- The `direct` offset of page `p`. -/
def directOf (p : PageIdx) (s : State) : Option Nat :=
  match PageTable.get s.pt p with
  | .unmapped => none
  | .mapped d => d.direct

/-! ### Single steps -/

/-- TV P1 rows 4 and 5: the mirror of the window. -/
theorem test_read_window : after (.read 0x1000) fixedBoot (·.reply) = some (.byte 0x4C) ∧
    after (.read 0x3001) fixedBoot (·.reply) = some (.byte 0x4D) := by decide +kernel
/-- TV 2.3: `READ $0801` selects bank 1, and the window follows. -/
theorem test_read_hotspot : after (.read 0x0801) multiBoot bankOf = some (some 1) ∧
    after (.read 0x0801) multiBoot (directOf 64) = some (some 0x1000) := by decide +kernel
/-- TV P1 row 7: a window WRITE answers `false`. -/
theorem test_write_window : after (.write 0x1000 0xFF) fixedBoot (·.reply) = some (.bool false) := by decide +kernel
/-- TV P2 row 7: `WRITE $0800,#$5A` selects bank 0 and reaches the device with address and data. -/
theorem test_write_hotspot : after (.write 0x0800 0x5A) multiBoot bankOf = some (some 0) ∧
    after (.write 0x0800 0x5A) multiBoot (·.calls) = some [{ dev := 0, access := .poke 0x0800 0x5A }] := by decide +kernel
/-- R113's example, for a 64-byte store: every window page has offset 0. -/
theorem test_getpage : after (.getpage 0x0041) fixedBoot (·.reply) =
    some (.entry (.mapped { owner := .cart, cap := .ro, direct := some 0, aux := some 0 })) := by decide +kernel
/-- TV 2.1. -/
theorem test_setpage : after (.setpage 0x007F (extDesc 0)) fixedBoot (fun s => PageTable.get s.pt 127) =
    some (.mapped (extDesc 0)) := by decide +kernel
/-- TV 2.2: `requestedSize` 65 gives 128 bytes, and a byte beyond the image is 0x02. -/
theorem test_fConstruct : after (.fConstruct (List.replicate 65 7) 65) fixedFresh
    (fun s => (s.store.size, s.store.read 64, s.store.read 65)) = some (128, 7, 0x02) := by decide +kernel
/-- TV 2.2: a buffer shorter than the size is refused. -/
theorem test_fConstruct_short : exec (.fConstruct [7] 2) fixedFresh = .refused .badImage := by rfl
/-- TV 2.3: 8192 bytes give two banks, bank 1 active. -/
theorem test_mConstruct : after (.mConstruct (List.replicate 8192 7)) multiFresh bankOf = some (some 1) ∧
    after (.mConstruct (List.replicate 8192 7)) multiFresh (fun s => s.store.read 8191) = some 7 := by decide +kernel
/-- TV 2.3: an empty image is refused. -/
theorem test_mConstruct_empty : exec (.mConstruct []) multiFresh = .refused .badImage := by rfl
/-- R113: with 64 bytes page 127 has offset 0, and the flag is not touched (TV 2.5). -/
theorem test_fInstall : after .fInstall fixedFresh (directOf 127) = some (some 0) ∧
    after .fInstall fixedFresh (·.bankChanged) = some false := by decide +kernel
/-- TV 2.3: `PT[64]` and `PT[127]` of bank 3, and the hotspot pages the cartridge's. -/
theorem test_mInstall : after .mInstall multiFresh (fun s => (directOf 64 s, directOf 127 s)) = some (some 0x3000, some 0x3FC0) ∧
    after .mInstall multiFresh (fun s => PageTable.get s.pt 32) = some (.mapped hotDesc) := by decide +kernel
/-- TV 2.3: a second install. -/
theorem test_mInstall_twice : exec .mInstall multiBoot = .refused .doubleInstall := by rfl
/-- TV 2.5. -/
theorem test_fReset : after .fReset fixedFresh (·.bankChanged) = some true := by decide +kernel
/-- TV 2.3: a locked cartridge resets to bank 3 and stays locked. -/
theorem test_mReset : after .mReset { multiLocked with cart := .multi { fourBanks with bank := 1, bankLocked := true } }
    (fun s => (bankOf s, lockOf s)) = some (some 3, some true) := by decide +kernel
/-- TV 2.2: `F.PEEK $F801` reads offset 1. -/
theorem test_fPeek : after (.fPeek 0xF801) fixedBoot (·.reply) = some (.byte 0x4D) := by decide +kernel
/-- TV 2.3: `a & 3` of 0x08FE is 2. -/
theorem test_mPeekHotspot : after (.mPeekHotspot 0x08FE) multiBoot bankOf = some (some 2) := by decide +kernel
/-- TV 2.3: `M.PEEK $1000` before INSTALL gives 0xC0. -/
theorem test_mPeekWindow : after (.mPeekWindow 0x1000) multiFresh (·.reply) = some (.byte 0xC0) := by decide +kernel
/-- TV 2.3: a direct `M.PEEK $0005` reads the active bank, here bank 1. -/
theorem test_mPeekLow : after (.mPeekLow 0x0005) { multiBoot with cart := .multi { fourBanks with bank := 1 } } (·.reply) =
    some (.byte 0x45) := by decide +kernel
/-- TV 2.2. -/
theorem test_fPoke : after (.fPoke 0x1000 0xFF) fixedBoot (·.reply) = some (.bool false) := by decide +kernel
/-- TV 2.3: locked, a hotspot poke leaves bank and flag alone and still reaches the device. -/
theorem test_mPokeHotspot : after (.mPokeHotspot 0x0803 0x11) multiLocked (fun s => (bankOf s, s.bankChanged, s.calls)) =
    some (some 3, false, [{ dev := 0, access := .poke 0x0803 0x11 }]) := by decide +kernel
/-- R136's example. -/
theorem test_mPokeWindow : after (.mPokeWindow 0x1000 0x55) multiBoot (·.reply) = some (.bool false) := by decide +kernel
/-- R136: below the hotspot region a direct poke does nothing. -/
theorem test_mPokeLow : after (.mPokeLow 0x07FF 0x55) multiBoot (fun s => (s.reply, s.store.cells)) =
    some (.bool false, multiBoot.store.cells) := by decide +kernel
/-- TV 2.2, for 64 bytes: a patch through a mirror. -/
theorem test_fPatch : after (.fPatch 0x1800 0xAB) fixedBoot (fun s => (s.reply, s.store.read 0)) =
    some (.bool true, 0xAB) := by decide +kernel
/-- TV 2.3: bank 3, `PATCH $F123,#$09` writes `store[0x3123]`, locked or not. -/
theorem test_mPatch : after (.mPatch 0xF123 0x09) multiLocked (fun s => (s.store.read 0x3123, s.bankChanged)) =
    some (0x09, true) := by decide +kernel
/-- TV 2.2. -/
theorem test_fBank : after (.fBank 1) fixedBoot (·.reply) = some (.bool false) := by decide +kernel
/-- TV 2.3: `BANK $0006` selects bank 2. -/
theorem test_mBank : after (.mBank 6) multiBoot (fun s => (bankOf s, directOf 64 s)) = some (some 2, some 0x2000) := by
  decide +kernel
/-- TV 2.3: locked. -/
theorem test_mBank_locked : after (.mBank 0) multiLocked (fun s => (s.reply, bankOf s)) = some (.bool false, some 3) := by
  decide +kernel
/-- TV 2.2. -/
theorem test_fGetbank : after .fGetbank fixedBoot (·.reply) = some (.number 0) := by decide +kernel
/-- TV P2 row 4. -/
theorem test_mGetbank : after .mGetbank multiBoot (·.reply) = some (.number 3) := by decide +kernel
/-- TV 2.2. -/
theorem test_fBankcount : after .fBankcount fixedBoot (·.reply) = some (.number 1) := by decide +kernel
/-- R142's example. -/
theorem test_mBankcount : after .mBankcount multiBoot (·.reply) = some (.number 4) := by decide +kernel
/-- R120: the store as it stands and its size. -/
theorem test_fGetimage : after .fGetimage fixedBoot (·.reply) = some (.image fixedBoot.store 64) := by decide +kernel
/-- R143's example. -/
theorem test_mGetimage : after .mGetimage multiBoot (·.reply) = some (.image multiBoot.store 16384) := by decide +kernel
/-- R121. -/
theorem test_fTag : after .fTag fixedBoot (·.reply) = some (.text Config.tagFixed) := by rfl
/-- R144. -/
theorem test_mTag : after .mTag multiBoot (·.reply) = some (.text Config.tagMulti) := by rfl
/-- TV 2.4. -/
theorem test_fSave : after (.fSave { items := [], putFails := [], gets := [] }) fixedBoot (·.reply) =
    some (.streamed true { items := [.str Config.tagFixed], putFails := [], gets := [] }) := by rfl
/-- TV 2.4: the second put fails. -/
theorem test_mSave : after (.mSave { items := [], putFails := [false, true], gets := [] }) multiBoot (fun s => (s.reply, s.diag)) =
    some (.streamed false { items := [.str Config.tagMulti], putFails := [], gets := [] }, [.save]) := by rfl
/-- TV 2.4: a short where the tag should be. -/
theorem test_fLoad : after (.fLoad { items := [.short 5], putFails := [], gets := [] }) fixedBoot (fun s => (s.reply, s.diag)) =
    some (.streamed false { items := [], putFails := [], gets := [] }, [.load]) := by decide +kernel
/-- TV 2.4: locked, `Short(0)` after the tag selects bank 0 and leaves the lock. -/
theorem test_mLoad : after (.mLoad { items := [.str Config.tagMulti, .short 0], putFails := [], gets := [] }) multiLocked
    (fun s => (bankOf s, lockOf s, s.bankChanged)) = some (some 0, some true, true) := by
  simp [after, nextOf, exec, execMLoad, onMulti, multiLocked, multiBoot, State.reset, streamGetString, streamGetShort, streamGet,
    itemString, itemShort, bankOf, lockOf, fourBanks]
/-- R156, U4: the caller's stream signals at the get of a good bank item and keeps the item; the cartridge is as it was. -/
theorem test_mLoad_get_signals :
    after (.mLoad { items := [.str Config.tagMulti, .short 0], putFails := [], gets := [.serves, .signals false] }) multiLocked
      (fun s => (s.reply, bankOf s, s.bankChanged, s.diag)) =
    some (.streamed false { items := [.short 0], putFails := [], gets := [] }, some 3, false, [.load]) := by
  simp [after, nextOf, exec, execMLoad, onMulti, multiLocked, multiBoot, State.reset, streamGetString, streamGetShort, streamGet,
    itemString, itemShort, bankOf, fourBanks]
/-- R160. -/
theorem test_lockbank : after .lockbank multiBoot lockOf = some (some true) := by decide +kernel
/-- R161. -/
theorem test_unlockbank : after .unlockbank multiLocked lockOf = some (some false) := by decide +kernel
/-- TV 2.5: the read does not clear. -/
theorem test_bankchanged : after .bankchanged multiBoot (fun s => (s.reply, s.bankChanged)) = some (.bool true, true) := by
  decide +kernel
/-- TV 2.5. -/
theorem test_clearbankchanged : after .clearbankchanged multiBoot (·.bankChanged) = some false := by decide +kernel

/-- R191: with nothing issued a step does nothing; TV 2.1: a READ at power-on is refused. -/
theorem test_step_from_reset : step State.reset = .next State.reset ∧
    step (State.reset.withFetchWord 32 0x00000000) = .refused .unmappedPage ∧
    step (State.reset.withFetchWord 32 0xFF000000) = .refused .noSuchOperation := ⟨rfl, rfl, rfl⟩

/-! ### Witnesses: states and operands that meet the hypotheses of the statements -/

open Sys2Proof.Claims

theorem deviceTable_get (p : PageIdx) :
    PageTable.get deviceTable p = if p.toNat < 64 then .mapped (extDesc 0) else .unmapped := by
  rw [deviceTable, PageTable.get_publish, PageTable.get_empty]
  by_cases h : p.toNat < 64
  · rw [if_pos h, if_pos (by simp [isWindowPage]; omega)]
  · rw [if_neg h, if_neg (by simp [isWindowPage]; omega)]

theorem fixedBoot_inv : fixedBoot.Inv :=
  ⟨by decide +kernel, by decide +kernel, by simp [fixedBoot, Cart.shapeOk, fixedSizes], rfl,
    by simp [fixedBoot, Cart.forwardsOutside]⟩

theorem fixedBoot_coherent : fixedBoot.Coherent :=
  ⟨fun _ p hp => by simp [fixedBoot, PageTable.get_publish, hp, State.winDesc], fun _ h => by cases h⟩

theorem fixedFresh_inv : fixedFresh.Inv :=
  ⟨by decide +kernel, by decide +kernel, by simp [fixedFresh, fixedBoot, Cart.shapeOk, fixedSizes], rfl,
    by simp [fixedFresh]⟩

theorem fourBanks_slot (h : Slot) : fourBanks.slot h = extDesc 0 := by simp [Banks.slot, fourBanks]

theorem multiBoot_inv : multiBoot.Inv :=
  ⟨by decide +kernel, by decide +kernel, by simp [multiBoot, Cart.shapeOk, fourBanks], rfl,
    fun _ h => by rw [fourBanks_slot]; simp [extDesc]⟩

theorem multiBoot_coherent : multiBoot.Coherent := by
  refine ⟨fun _ p hp => ?_, fun _ _ p hp => ?_⟩
  · show PageTable.get multiTable p = _
    rw [multiTable, PageTable.get_publish, if_pos hp]
    rfl
  · show PageTable.get multiTable p = _
    have hw : ¬ isWindowPage p = true := by rw [isWindowPage_iff]; rw [isHotspotPage_iff] at hp; omega
    rw [multiTable, PageTable.get_publish, if_neg hw, PageTable.get_publish, if_pos hp]

theorem multiLocked_coherent : multiLocked.Coherent :=
  ⟨fun _ p hp => multiBoot_coherent.window rfl p hp, fun _ _ p hp => multiBoot_coherent.hotspot rfl rfl p hp⟩

theorem multiLocked_inv : multiLocked.Inv :=
  ⟨by decide +kernel, by decide +kernel, by simp [multiLocked, multiBoot, Cart.shapeOk, fourBanks], rfl,
    fun _ h => by simp [Banks.slot, fourBanks, extDesc]⟩

theorem multiFresh_inv : multiFresh.Inv :=
  ⟨by decide +kernel, by decide +kernel, by simp [multiFresh, multiBoot, Cart.shapeOk, fourBanks], rfl,
    by simp [multiFresh]⟩

/-- A state whose next operation is `i`. -/
def issuing (i : Instr) (s : State) : State := { s with pending := [encode i] }

/-- Both regions' ends. -/
theorem witness_DecodeOfEncodeIsIdentity :
    (Instr.wf (.mPeekHotspot 0x0800) = true ∧ Instr.existsIn .multi (.mPeekHotspot 0x0800) = true) ∧
    (Instr.wf (.mPokeWindow 0xFFFF 0xFF) = true ∧ Instr.existsIn .multi (.mPokeWindow 0xFFFF 0xFF) = true) ∧
    (Instr.wf (.fLoad { items := [.str "a"], putFails := [true], gets := [] }) = true ∧
      Instr.existsIn .fixed (.fLoad { items := [.str "a"], putFails := [true], gets := [] }) = true) := by decide

theorem witness_DecodedOperationIsWellFormed : decode .multi { word := 0x12FFFFFF, beside := Beside.empty } =
    .instr (.mPeekWindow 0xFFFF) := by decide

theorem witness_UnassignedSelectorsAreRefused :
    (∃ t, selOf t.word ∉ [0x00#8, 0x01#8, 0x02#8, 0x03#8, 0x0F#8, 0x10#8, 0x11#8, 0x12#8, 0x13#8, 0x14#8, 0x15#8, 0x16#8,
        0x17#8, 0x18#8, 0x19#8, 0x1A#8, 0x1B#8, 0x20#8, 0x21#8, 0x22#8, 0x23#8] ∧
      ({ State.reset with pending := [t] } : State).pending = [t]) ∧
    fixedBoot.cart = .fixed ∧ selOf (encode .unlockbank).word = 0x21#8 := by
  refine ⟨⟨bareTransaction 32 0x24000000, by decide, rfl⟩, rfl, by decide⟩

/-- One pair of words for each clause, differing in every bit the clause ignores. -/
theorem witness_IgnoredFieldsDoNotMatter :
    (0x0800#16 &&& 0x1FFF#16 = 0xE800#16 &&& 0x1FFF#16) ∧ multiBoot.variant = .multi ∧ fixedBoot.variant = .fixed ∧
    ((0x1000#16).toNat &&& (fixedBoot.store.size - 1) = (0xFFC0#16).toNat &&& (fixedBoot.store.size - 1)) ∧
    (0x0123#16 &&& 0x0FFF#16 = 0xF123#16 &&& 0x0FFF#16) := by decide +kernel

theorem witness_StepRunsTheDecodedOperation :
    State.reset.pending = [] ∧
    ((issuing (.mBank 1) multiBoot).pending = [encode (.mBank 1)] ∧
      decode (issuing (.mBank 1) multiBoot).variant (encode (.mBank 1)) = .instr (.mBank 1)) ∧
    ((issuing .lockbank fixedBoot).pending = [encode .lockbank] ∧
      decode (issuing .lockbank fixedBoot).variant (encode .lockbank) = .rejected (.notInFixedVariant 0x20)) :=
  ⟨rfl, ⟨rfl, by decide +kernel⟩, rfl, by decide +kernel⟩

theorem witness_OtherVariantsOperationsAreRefused :
    Instr.existsIn fixedBoot.variant .lockbank = false ∧ Instr.existsIn multiBoot.variant .fInstall = false := by decide +kernel

theorem step_of_after {α : Type} {i : Instr} {s : State} {f : State → α} {x : α} (hp : s.pending = [])
    (hd : decode s.variant (encode i) = .instr i) (h : after i s f = some x) :
    ∃ t, step (issuing i s) = .next t ∧ f t = x := by
  obtain ⟨t, ht, hx⟩ := next_of_after h
  refine ⟨t, ?_, hx⟩
  have hs : ({ issuing i s with pending := [] } : State) = s := by
    obtain ⟨⟩ := s
    simp only [issuing]
    congr 1
    exact hp.symm
  have hv : (issuing i s).variant = s.variant := rfl
  rw [step, fetch_cons (show (issuing i s).pending = encode i :: [] from rfl), hs, hv]
  simp only [hd]
  exact ht

theorem witness_StepKeepsInvariant : State.Inv (issuing (.mPatch 0x0FFF 0x09) multiBoot) ∧
    ∃ t, step (issuing (.mPatch 0x0FFF 0x09) multiBoot) = .next t ∧ t.store.read 0x3FFF = 0x09 :=
  ⟨multiBoot_inv.congr rfl rfl rfl rfl, step_of_after rfl (by decide +kernel) (by decide +kernel)⟩

theorem witness_StepNeverFaults : State.Inv (issuing (.read 0x0FFF) multiBoot) := multiBoot_inv.congr rfl rfl rfl rfl

theorem witness_StepKeepsTableCoherence :
    (State.Coherent (issuing (.mBank 1) multiBoot) ∧ (issuing (.mBank 1) multiBoot).nextLeavesCartPages = true ∧
      ∃ t, step (issuing (.mBank 1) multiBoot) = .next t ∧ bankOf t = some 1) ∧
    (issuing (.setpage 31 (extDesc 0)) multiBoot).nextLeavesCartPages = true ∧
    (issuing (.setpage 32 (extDesc 0)) multiBoot).nextLeavesCartPages = false ∧
    (issuing (.setpage 63 (extDesc 0)) fixedBoot).nextLeavesCartPages = true ∧
    (issuing (.setpage 64 (extDesc 0)) fixedBoot).nextLeavesCartPages = false :=
  ⟨⟨multiBoot_coherent.congr rfl rfl rfl rfl, by decide +kernel, step_of_after rfl (by decide +kernel) (by decide +kernel)⟩,
    by decide +kernel, by decide +kernel, by decide +kernel, by decide +kernel⟩

theorem witness_UnmappedPagesAreRefused : PageTable.get fixedFresh.pt (pageOf (busAddr 0x1FFF)) = .unmapped := by
  show PageTable.get deviceTable _ = _
  rw [deviceTable_get, if_neg (by decide)]

/-- GETPAGE and SETPAGE: the last index that exists and the first that does not. -/
theorem witness_GetpageReturnsTheEntry : (0x007F#16 : Arg).toNat ≤ 127 ∧ 127 < (0x0080#16 : Arg).toNat := by decide

theorem witness_SetpageWritesOneEntry : (0x007F#16 : Arg).toNat ≤ 127 ∧ (0#7 : PageIdx) ≠ (0x007F#16 : Arg).setWidth 7 ∧
    127 < (0xFFFF#16 : Arg).toNat := by decide

theorem witness_ExternalPageAccessCallsTheDevice :
    PageTable.get fixedFresh.pt (pageOf (busAddr 0x0FFF)) = .mapped (extDesc 0) ∧ (extDesc 0).owner = .ext 0 ∧
    fixedFresh.calls.length ∉ fixedFresh.reentries ∧
    ({ fixedFresh with reentries := [0] } : State).calls.length ∈ ({ fixedFresh with reentries := [0] } : State).reentries := by
  refine ⟨?_, rfl, by decide +kernel, by decide +kernel⟩
  show PageTable.get deviceTable _ = _
  rw [deviceTable_get, if_pos (by decide)]

theorem witness_FixedWindowAccess : fixedBoot.Inv ∧ fixedBoot.Coherent ∧ fixedBoot.cart = .fixed ∧
    fixedBoot.installed = true ∧ (0x1000#16).getLsbD 12 = true ∧ (0xFFFF#16).getLsbD 12 = true :=
  ⟨fixedBoot_inv, fixedBoot_coherent, rfl, rfl, by decide, by decide⟩

theorem witness_MultiWindowAccess : multiBoot.Coherent ∧ multiBoot.cart = .multi fourBanks ∧ multiBoot.installed = true ∧
    (0x1FFF#16).getLsbD 12 = true := ⟨multiBoot_coherent, rfl, rfl, by decide⟩

/-- For the unlocked hotspot read and write, at both ends of the region. -/
theorem witness_UnlockedHotspotReadSwitchesAndForwards : multiBoot.Inv ∧ multiBoot.Coherent ∧
    multiBoot.cart = .multi fourBanks ∧ multiBoot.installed = true ∧ fourBanks.bankLocked = false ∧
    inHotspot (busAddr 0x0800) = true ∧ inHotspot (busAddr 0x0FFF) = true ∧
    (fourBanks.slot (slotOf (busAddr 0x0FFF))).owner = .ext 0 ∧ multiBoot.calls.length ∉ multiBoot.reentries :=
  ⟨multiBoot_inv, multiBoot_coherent, rfl, rfl, rfl, by decide, by decide, by rw [fourBanks_slot]; rfl, by decide +kernel⟩

theorem witness_UnlockedHotspotWriteSwitchesAndForwards : multiBoot.Inv ∧ multiBoot.Coherent ∧
    multiBoot.cart = .multi fourBanks ∧ multiBoot.installed = true ∧ fourBanks.bankLocked = false ∧
    inHotspot (busAddr 0xE800) = true ∧ (fourBanks.slot (slotOf (busAddr 0xE800))).owner = .ext 0 ∧
    multiBoot.calls.length ∉ multiBoot.reentries :=
  ⟨multiBoot_inv, multiBoot_coherent, rfl, rfl, rfl, by decide, by rw [fourBanks_slot]; rfl, by decide +kernel⟩

theorem witness_LockedHotspotAccessOnlyForwards : multiLocked.Coherent ∧
    multiLocked.cart = .multi { fourBanks with bankLocked := true } ∧ multiLocked.installed = true ∧
    inHotspot (busAddr 0x0FFF) = true ∧
    (Banks.slot { fourBanks with bankLocked := true } (slotOf (busAddr 0x0FFF))).owner = .ext 0 ∧
    multiLocked.calls.length ∉ multiLocked.reentries :=
  ⟨multiLocked_coherent, rfl, rfl, by decide, by simp [Banks.slot, fourBanks, extDesc], by decide +kernel⟩

/-- A window read, a direct poke below the region, and a read that calls a device. -/
theorem witness_AccessOutsideHotspotLeavesTheBlock :
    (busOperand (.read 0x1000) = some 0x1000 ∧ inHotspot (busAddr 0x1000) = false ∧
      ∃ t, exec (.read 0x1000) multiBoot = .next t ∧ t.reply = .byte 0xC0) ∧
    (busOperand (.mPokeLow 0x07FF 1) = some 0x07FF ∧ inHotspot (busAddr 0x07FF) = false ∧
      ∃ t, exec (.mPokeLow 0x07FF 1) multiBoot = .next t ∧ t.reply = .bool false) ∧
    (busOperand (.read 0x07FF) = some 0x07FF ∧
      ∃ t, exec (.read 0x07FF) multiBoot = .next t ∧ t.calls = [{ dev := 0, access := .peek 0x07FF }]) :=
  ⟨⟨rfl, by decide, next_of_after (by decide +kernel)⟩, ⟨rfl, by decide, next_of_after (by decide +kernel)⟩, rfl,
    next_of_after (by decide +kernel)⟩

/-- A low page SETPAGE has given to the cartridge, in both variants, and a hotspot page so given before M.INSTALL. -/
theorem witness_CartridgePageAccessIsItsPeekAndPoke :
    (PageTable.get (PageTable.set deviceTable 0 hotDesc) (pageOf (busAddr 0x003F)) = .mapped hotDesc ∧
      hotDesc.owner = .cart ∧ inHotspot (busAddr 0x003F) = false) ∧
    ({ fixedBoot with pt := PageTable.set deviceTable 0 hotDesc } : State).cart = .fixed ∧
    ({ multiBoot with pt := PageTable.set deviceTable 0 hotDesc } : State).cart = .multi fourBanks ∧
    (({ multiFresh with pt := PageTable.set deviceTable 63 hotDesc } : State).installed = false ∧
      PageTable.get (PageTable.set deviceTable 63 hotDesc) (pageOf (busAddr 0x0FFF)) = .mapped hotDesc ∧
      inHotspot (busAddr 0x0FFF) = true) :=
  ⟨⟨by rw [PageTable.get_set, if_pos (by decide)], rfl, by decide⟩, rfl, rfl, rfl,
    by rw [PageTable.get_set, if_pos (by decide)], by decide⟩

/-- In both variants. -/
theorem witness_DispatchedReadEqualsDirectRead :
    (fixedBoot.Inv ∧ fixedBoot.Coherent ∧ fixedBoot.installed = true) ∧
    (multiBoot.Inv ∧ multiBoot.Coherent ∧ multiBoot.installed = true) ∧ (0x1FFF#16).getLsbD 12 = true :=
  ⟨⟨fixedBoot_inv, fixedBoot_coherent, rfl⟩, ⟨multiBoot_inv, multiBoot_coherent, rfl⟩, by decide⟩

/-- The hotspot page of a booted system is the cartridge's own. -/
theorem multiBoot_hotspot_page : PageTable.get multiBoot.pt (pageOf (busAddr 0x0800)) = .mapped hotDesc := by decide +kernel

theorem witness_ReentrantForwardIsRefused : ({ multiBoot with reentries := [0] } : State).cart = .multi fourBanks ∧
    ({ multiBoot with reentries := [0] } : State).installed = true ∧ inHotspot (busAddr 0x0800) = true ∧
    (fourBanks.slot (slotOf (busAddr 0x0800))).owner = .ext 0 ∧
    ({ multiBoot with reentries := [0] } : State).calls.length ∈ ({ multiBoot with reentries := [0] } : State).reentries ∧
    PageTable.get ({ multiBoot with reentries := [0] } : State).pt (pageOf (busAddr 0x0800)) = .mapped hotDesc ∧
    hotDesc.owner = .cart :=
  ⟨rfl, rfl, by decide, by rw [fourBanks_slot]; rfl, by decide +kernel, multiBoot_hotspot_page, rfl⟩

theorem witness_SelfForwardIsEndless :
    multiSelf.cart = .multi { fourBanks with captured := Vector.replicate 32 hotDesc } ∧ multiSelf.installed = true ∧
    inHotspot (busAddr 0x0FFF) = true ∧
    (Banks.slot { fourBanks with captured := Vector.replicate 32 hotDesc } (slotOf (busAddr 0x0FFF))).owner = .cart :=
  ⟨rfl, rfl, by decide, by simp [Banks.slot, hotDesc]⟩

/-- TV 2.2: the 99-byte buffer for size 100, and sizes 0, 100 and 4096 accepted. -/
theorem witness_FixedConstructBuildsTheStore :
    (List.replicate 99 (0 : Byte)).length < min 100 2048 ∧ min 100 2048 ≤ (List.replicate 100 (0 : Byte)).length ∧
    min 0 2048 ≤ ([] : List Byte).length ∧ min 4096 2048 ≤ (List.replicate 2048 (0 : Byte)).length ∧
    State.reset.constructs = 0 ∧ State.reset.installed = false := by
  simp only [List.length_replicate, List.length_nil]
  decide +kernel

theorem witness_FixedInstallPublishesTheWindow : fixedBoot.cart = .fixed ∧ fixedBoot.installed = true ∧
    fixedFresh.cart = .fixed ∧ fixedFresh.installed = false := ⟨rfl, rfl, rfl, rfl⟩

theorem witness_FixedAnswersChangeNothing : fixedFresh.cart = .fixed := rfl

theorem witness_FixedPatchWritesOneByte : fixedBoot.Inv ∧ fixedBoot.cart = .fixed ∧
    (63 : Nat) ≠ (0x1000#16).toNat &&& (fixedBoot.store.size - 1) := ⟨fixedBoot_inv, rfl, by decide +kernel⟩

theorem witness_FixedResetOnlySetsTheFlag : fixedFresh.cart = .fixed := rfl

theorem witness_TagAccessorsAnswerTheVariantsTag : fixedBoot.Inv ∧ fixedBoot.cart = .fixed ∧ multiBoot.Inv ∧
    multiBoot.cart = .multi fourBanks := ⟨fixedBoot_inv, rfl, multiBoot_inv, rfl⟩

/-- TV 2.3's refused sizes 0 and 4097, one bank too many, and the smallest and largest accepted sizes. -/
theorem witness_MultiConstructHoldsTheImage :
    ([] : List Byte).length = 0 ∧ (List.replicate 4097 (0 : Byte)).length % 4096 ≠ 0 ∧
    65536 < (List.replicate (65537 * 4096) (0 : Byte)).length / 4096 ∧
    ((List.replicate 4096 (0 : Byte)).length ≠ 0 ∧ (List.replicate 4096 (0 : Byte)).length % 4096 = 0 ∧
      (List.replicate 4096 (0 : Byte)).length / 4096 ≤ 65536) ∧
    (List.replicate (65536 * 4096) (0 : Byte)).length / 4096 ≤ 65536 ∧ State.reset.constructs = 0 ∧
    State.reset.installed = false := by
  simp only [List.length_replicate, List.length_nil]
  decide +kernel

theorem witness_ReplacingTheCartridgeIsANewPowerOn : isConstruct (.fConstruct [] 0) = true ∧ multiFresh.constructs ≠ 0 ∧
    ∃ t, exec (.fConstruct [] 0) multiFresh = .next t ∧ t.store.size = 64 :=
  ⟨rfl, by decide +kernel, next_of_after (by decide +kernel)⟩

/-- The accepted install, and obstacles at the first and the last slot. -/
theorem witness_MultiInstallCapturesAndTakesOver :
    (multiBoot.cart = .multi fourBanks ∧ multiBoot.installed = true) ∧
    (multiFresh.cart = .multi fourBanks ∧ multiFresh.installed = false ∧
      ∀ h, PageTable.get multiFresh.pt (hotspotPage h) = .mapped (extDesc 0) ∧ (extDesc 0).owner ≠ .cart) ∧
    PageTable.get ({ multiFresh with pt := PageTable.empty } : State).pt (hotspotPage 0) = .unmapped ∧
    ((∀ g : Slot, g.toNat < (31 : Slot).toNat →
        ∃ d, PageTable.get (PageTable.set deviceTable (hotspotPage 31) hotDesc) (hotspotPage g) = .mapped d ∧ d.owner ≠ .cart) ∧
      PageTable.get (PageTable.set deviceTable (hotspotPage 31) hotDesc) (hotspotPage 31) = .mapped hotDesc ∧
      hotDesc.owner = .cart) := by
  have hdev : ∀ h : Slot, PageTable.get deviceTable (hotspotPage h) = .mapped (extDesc 0) := by
    intro h
    have := h.isLt
    rw [deviceTable_get, if_pos (by rw [hotspotPage_toNat]; omega)]
  refine ⟨⟨rfl, rfl⟩, ⟨rfl, rfl, fun h => ⟨hdev h, by simp [extDesc]⟩⟩, PageTable.get_empty _, fun g hg => ?_,
    by rw [PageTable.get_set, if_pos rfl], rfl⟩
  refine ⟨extDesc 0, ?_, by simp [extDesc]⟩
  rw [PageTable.get_set, if_neg (fun he => ?_), hdev g]
  have := congrArg BitVec.toNat he
  rw [hotspotPage_toNat, hotspotPage_toNat] at this
  omega

theorem witness_MultiBankSelectsUnlessLocked :
    (multiFresh.cart = .multi fourBanks ∧ multiFresh.installed = false) ∧
    (multiLocked.cart = .multi { fourBanks with bankLocked := true } ∧ multiLocked.installed = true) ∧
    (multiBoot.cart = .multi fourBanks ∧ multiBoot.installed = true ∧ fourBanks.bankLocked = false) :=
  ⟨⟨rfl, rfl⟩, ⟨rfl, rfl⟩, rfl, rfl, rfl⟩

theorem witness_MultiPatchWritesOneByteOfTheBank : multiBoot.Inv ∧ multiBoot.cart = .multi fourBanks ∧
    (0 : Nat) ≠ fourBanks.bank * 4096 + ((0x0800#16).toNat &&& 0x0FFF) := ⟨multiBoot_inv, rfl, by decide⟩

theorem witness_MultiResetRestoresTheStartupBank : (multiFresh.cart = .multi fourBanks ∧ multiFresh.installed = false) ∧
    (multiLocked.cart = .multi { fourBanks with bankLocked := true } ∧ multiLocked.installed = true) :=
  ⟨⟨rfl, rfl⟩, rfl, rfl⟩

theorem witness_MultiAnswersChangeNothing : multiFresh.cart = .multi fourBanks := rfl

/-- Each clause, with the addresses on both sides of the region's ends. -/
theorem witness_MultiPeekReadsOrForwards :
    multiBoot.Inv ∧ multiBoot.cart = .multi fourBanks ∧ Instr.mPeekHotspot 0x0FFF ∈ mPeekForms 0x0FFF ∧
    inHotspot (busAddr 0x07FF) = false ∧ inHotspot (busAddr 0x1000) = false ∧ inHotspot (busAddr 0x0800) = true ∧
    inHotspot (busAddr 0x0FFF) = true ∧ (multiFresh.Inv ∧ multiFresh.installed = false) ∧ multiBoot.installed = true ∧
    multiBoot.calls.length ∉ multiBoot.reentries ∧ (fourBanks.slot (slotOf (busAddr 0x0FFF))).owner = .ext 0 ∧
    fourBanks.bankLocked = false ∧ multiLocked.cart = .multi { fourBanks with bankLocked := true } :=
  ⟨multiBoot_inv, rfl, by simp [mPeekForms], by decide, by decide, by decide, by decide, ⟨multiFresh_inv, rfl⟩, rfl,
    by decide +kernel, by rw [fourBanks_slot]; rfl, rfl, rfl⟩

/-- Each clause, with the addresses on both sides of the region's ends. -/
theorem witness_MultiPokeForwardsOrDoesNothing :
    multiBoot.Inv ∧ multiBoot.cart = .multi fourBanks ∧ Instr.mPokeLow 0x07FF 1 ∈ mPokeForms 0x07FF 1 ∧
    inHotspot (busAddr 0x07FF) = false ∧ inHotspot (busAddr 0x1000) = false ∧ inHotspot (busAddr 0x0800) = true ∧
    inHotspot (busAddr 0x0FFF) = true ∧ inHotspot (busAddr 0x2800) = true ∧ (multiFresh.Inv ∧ multiFresh.installed = false) ∧
    multiBoot.installed = true ∧ multiBoot.calls.length ∉ multiBoot.reentries ∧
    (fourBanks.slot (slotOf (busAddr 0x0FFF))).owner = .ext 0 ∧ fourBanks.bankLocked = false ∧
    (multiLocked.Inv ∧ multiLocked.cart = .multi { fourBanks with bankLocked := true } ∧ multiLocked.installed = true ∧
      multiLocked.calls.length ∉ multiLocked.reentries ∧
      (Banks.slot { fourBanks with bankLocked := true } (slotOf (busAddr 0x0FFF))).owner = .ext 0) :=
  ⟨multiBoot_inv, rfl, by simp [mPokeForms], by decide, by decide, by decide, by decide, by decide, ⟨multiFresh_inv, rfl⟩,
    rfl, by decide +kernel, by rw [fourBanks_slot]; rfl, rfl, multiLocked_inv, rfl, rfl, by decide +kernel,
    by simp [Banks.slot, fourBanks, extDesc]⟩

/-- Patching bank 3, selecting bank 1 and peeking: all three steps complete. -/
theorem witness_PatchIsSeenOnlyInItsBank : multiBoot.Inv ∧ multiBoot.cart = .multi fourBanks ∧
    inHotspot (busAddr 0x1000) = false ∧
    ∃ t u w, exec (.mPatch 0x1000 0xAB) multiBoot = .next t ∧ exec (.mBank 1) t = .next u ∧ u.reply = .bool true ∧
      exec (.mPeekWindow 0x1000) u = .next w := by
  obtain ⟨t, ht, h2⟩ := next_of_after (i := .mPatch 0x1000 0xAB) (s := multiBoot)
    (f := fun t => after (.mBank 1) t fun u => (u.reply, after (.mPeekWindow 0x1000) u State.installed))
    (x := some (.bool true, some true)) (by decide +kernel)
  obtain ⟨u, hu, h3⟩ := next_of_after h2
  obtain ⟨w, hw, -⟩ := next_of_after (congrArg Prod.snd h3)
  exact ⟨multiBoot_inv, rfl, by decide, t, u, w, ht, hu, congrArg Prod.fst h3, hw⟩

theorem witness_FixedSaveWritesTheTag : fixedFresh.cart = .fixed ∧ ([false, true] : List Bool) ∈ [[], [false, true]] :=
  ⟨rfl, by decide⟩

/-- A served get, a get at which the stream signals, a short first and an exhausted stream. -/
theorem witness_FixedLoadComparesTheTag : fixedFresh.cart = .fixed ∧
    (∃ st : Sys2Proof.Stream, st.items = [.str fixedFresh.tag] ∧ st.gets[0]? ∈ [none, some .serves]) ∧
    (∃ st : Sys2Proof.Stream, st.items = [.str fixedFresh.tag] ∧ st.gets[0]? = some (.signals false)) ∧
    (∃ st : Sys2Proof.Stream, st.items = [.short 0]) ∧ (∃ st : Sys2Proof.Stream, st.items = []) :=
  ⟨rfl, ⟨⟨_, [], []⟩, rfl, by simp⟩, ⟨⟨_, [], [.signals false]⟩, rfl, rfl⟩, ⟨⟨_, [], []⟩, rfl⟩, ⟨⟨_, [], []⟩, rfl⟩⟩

theorem witness_MultiSaveWritesTagAndBank : multiFresh.Inv ∧ multiFresh.cart = .multi fourBanks := ⟨multiFresh_inv, rfl⟩

/-- Every stream of the clauses, the empty and the truncated one among them, and a tag that is not this cartridge's. -/
theorem witness_MultiLoadRestoresTheBank : multiFresh.installed = false ∧ multiBoot.installed = true ∧
    multiBoot.cart = .multi fourBanks ∧ Config.tagFixed ≠ multiBoot.tag ∧
    (∃ st : Sys2Proof.Stream, st.items = [.str multiBoot.tag, .short 0xFFFF] ∧ st.gets[0]? ∈ [none, some .serves] ∧
      st.gets[1]? ∈ [none, some .serves]) ∧
    (∃ st : Sys2Proof.Stream, st.items = []) ∧ (∃ st : Sys2Proof.Stream, st.items = [.short 0]) ∧
    (∃ st : Sys2Proof.Stream, st.items = [.str multiBoot.tag] ∧ st.gets[0]? = some (.signals true)) ∧
    (∃ st : Sys2Proof.Stream, st.items = [.str multiBoot.tag] ∧ st.gets[0]? ∈ [none, some .serves]) ∧
    (∃ st : Sys2Proof.Stream, st.items = [.str multiBoot.tag, .str "x"]) ∧
    (∃ st : Sys2Proof.Stream, st.items = [.str multiBoot.tag, .short 1] ∧ st.gets[0]? ∈ [none, some .serves] ∧
      st.gets[1]? = some (.signals false)) :=
  ⟨rfl, rfl, rfl, Config.tagFixed_ne_tagMulti, ⟨⟨_, [], [.serves]⟩, rfl, by simp, by simp⟩, ⟨⟨_, [], []⟩, rfl⟩,
    ⟨⟨_, [], []⟩, rfl⟩, ⟨⟨_, [], [.signals true]⟩, rfl, rfl⟩, ⟨⟨_, [], []⟩, rfl, by simp⟩, ⟨⟨_, [], []⟩, rfl⟩,
    ⟨⟨_, [], [.serves, .signals false]⟩, rfl, by simp, rfl⟩⟩

/-- Both variants: the save completes, and its stream is a stream the load is given. -/
theorem witness_SaveThenLoadRoundTrips :
    (multiFresh.Inv ∧ multiBoot.Inv ∧ multiFresh.cart = .multi fourBanks ∧ multiBoot.cart = .multi fourBanks ∧
      multiBoot.installed = true ∧ multiBoot.store = multiFresh.store ∧
      ∃ t, exec (.mSave { items := [], putFails := [], gets := [] }) multiFresh = .next t ∧
        t.reply = .streamed true { items := [.str Config.tagMulti, .short 3], putFails := [], gets := [] }) ∧
    (fixedFresh.Inv ∧ fixedFresh.cart = .fixed ∧
      ∃ t, exec (.fSave { items := [], putFails := [], gets := [] }) fixedFresh = .next t ∧
        t.reply = .streamed true { items := [.str Config.tagFixed], putFails := [], gets := [] }) ∧
    Config.tagFixed ≠ multiBoot.tag ∧ Config.tagMulti ≠ fixedFresh.tag :=
  ⟨⟨multiFresh_inv, multiBoot_inv, rfl, rfl, rfl, rfl, next_of_after rfl⟩, ⟨fixedFresh_inv, rfl, next_of_after rfl⟩,
    Config.tagFixed_ne_tagMulti, Config.tagFixed_ne_tagMulti.symm⟩

theorem witness_ReportedFailuresChangeNothing :
    (∃ t, exec (.fLoad { items := [], putFails := [], gets := [] }) fixedBoot = .next t ∧
      t.reply = .streamed false { items := [], putFails := [], gets := [] }) ∧
    (∃ t, exec (.mBank 0) multiLocked = .next t ∧ t.reply = .bool false) :=
  ⟨next_of_after (by decide +kernel), next_of_after (by decide +kernel)⟩

theorem witness_LockControlsChangeOnlyTheLock : multiFresh.cart = .multi fourBanks ∧ fixedFresh.cart = .fixed := ⟨rfl, rfl⟩

/-- The flag falling and rising. -/
theorem witness_FlagChangesOnlyByItsRules :
    (multiBoot.bankChanged = true ∧ ∃ t, exec .clearbankchanged multiBoot = .next t ∧ t.bankChanged = false) ∧
    (fixedFresh.bankChanged = false ∧ ∃ t, exec .fReset fixedFresh = .next t ∧ t.bankChanged = true) :=
  ⟨⟨rfl, next_of_after (by decide +kernel)⟩, rfl, next_of_after (by decide +kernel)⟩

/-- The bank, the lock and the captures changing. -/
theorem witness_BankStateChangesOnlyByItsRules :
    (∃ t, exec (.read 0x0801) multiBoot = .next t ∧ bankOf t = some 1) ∧
    (∃ t, exec .unlockbank multiLocked = .next t ∧ lockOf t = some false) ∧
    (∃ t, exec .mInstall { multiSelf with pt := deviceTable, installed := false } = .next t ∧ t.installed = true) :=
  ⟨next_of_after (by decide +kernel), next_of_after (by decide +kernel), next_of_after (by decide +kernel)⟩

theorem witness_StoreAndIdentityChangeOnlyByTheirRules :
    (∃ t, exec (.fPatch 0x1000 0xAB) fixedBoot = .next t ∧ decide (t.store ≠ fixedBoot.store) = true) ∧
    (fixedFresh.installed = false ∧ ∃ t, exec .fInstall fixedFresh = .next t ∧ t.installed = true) :=
  ⟨next_of_after (by decide +kernel), rfl, next_of_after (by decide +kernel)⟩

theorem witness_PagesChangeOnlyByTheirRules :
    ∃ t, exec (.setpage 0x0000 (extDesc 1)) fixedBoot = .next t ∧
      decide (PageTable.get t.pt 0 ≠ PageTable.get fixedBoot.pt 0) = true := next_of_after (by decide +kernel)

theorem witness_DevicesAndDiagnosticsChangeOnlyByTheirRules :
    (∃ t, exec (.read 0x0FFF) multiBoot = .next t ∧ t.calls = [{ dev := 0, access := .peek 0x0FFF }]) ∧
    (∃ t, exec (.fLoad { items := [], putFails := [], gets := [] }) fixedBoot = .next t ∧ t.diag = [.load]) :=
  ⟨next_of_after (by decide +kernel), next_of_after (by decide +kernel)⟩

theorem witness_MultiPowerOnReachesTheBootState : ∃ image : List Byte, image.length ≠ 0 ∧ image.length % 4096 = 0 ∧
    image.length / 4096 ≤ 65536 := ⟨List.replicate 4096 0, by simp only [List.length_replicate]; decide⟩

theorem witness_FixedPowerOnReachesTheBootState : min 0 2048 ≤ ([] : List Byte).length ∧
    min 65535 2048 ≤ (List.replicate 2048 (0 : Byte)).length := by
  simp only [List.length_replicate, List.length_nil]
  decide

theorem witness_SwitchSelectsTheNamedBank : multiBoot.Inv ∧ multiBoot.Coherent ∧ multiBoot.cart = .multi fourBanks ∧
    multiBoot.installed = true ∧ fourBanks.bankLocked = false ∧ multiBoot.calls.length ∉ multiBoot.reentries ∧
    fourBanks.bankCount = 2 ^ 2 ∧ 3 < fourBanks.bankCount :=
  ⟨multiBoot_inv, multiBoot_coherent, rfl, rfl, rfl, by decide +kernel, rfl, by decide⟩

end Sys2Proof.Tests
end

/-! PROOFS. The statements of 10_state.md. `Changes` (Laws/Exec.lean) says what an operation can do; this part says the same of
a step and of a bus access, then reads off it who may change each element of the state, the invariant and table coherence. -/

namespace Sys2Proof.Machine

open Sys2Proof.Claims

/-! ### Rules about single operations and terms -/

theorem busOperand_eq_accessArg (i : Instr) : busOperand i = accessArg i := by cases i <;> rfl

/-- The region test of R85 is the address range of R8. -/
theorem isHotspotAccess_of_accessArg {i : Instr} {a : Arg} (hi : accessArg i = some a)
    (hh : inHotspot (busAddr a) = true) : isHotspotAccess i := by
  rw [inHotspot_iff, busAddr_toNat] at hh
  exact ⟨a, busOperand_eq_accessArg i ▸ hi, hh.1, by omega⟩

/-- Publishing changes the pages it picks and no other. -/
theorem PageTable.which_of_publish_ne {t : PageTable} {which : PageIdx → Bool} {d : PageIdx → Desc} {p : PageIdx}
    (h : PageTable.get (PageTable.publish t which d) p ≠ PageTable.get t p) : which p = true := by
  by_contra hw
  rw [PageTable.get_publish, if_neg hw] at h
  exact h rfl

theorem not_window_of_hotspot_page {p : PageIdx} (h : isHotspotPage p = true) : ¬ isWindowPage p = true := by
  rw [isHotspotPage_iff] at h
  rw [isWindowPage_iff]
  omega

theorem State.winDesc_of_fixed {s : State} (h : s.cart = .fixed) (p : PageIdx) :
    s.winDesc p = fixedWinDesc s.store.size p := by simp [State.winDesc, h]

theorem State.winDesc_of_multi {s : State} {b : Banks} (h : s.cart = .multi b) (p : PageIdx) :
    s.winDesc p = multiWinDesc b.bank p := by simp [State.winDesc, h]

/-- Everything a bus access can do: one more external call or none, and, for an unlocked hotspot access, a bank select. -/
theorem AccessLeaves.cases {a : BusAddr} {s u : State} (h : AccessLeaves a s u) :
    ∃ calls, (calls = s.calls ∨ ∃ c, calls = s.calls ++ [c]) ∧
      (u = { s with calls := calls } ∨
        ∃ b n, s.cart = .multi b ∧ b.bankLocked = false ∧ inHotspot a = true ∧ s.installed = true ∧
          (1 ≤ b.bankCount → n < b.bankCount) ∧ u = { selectBank n b s with calls := calls }) := by
  cases h with
  | same => exact ⟨s.calls, .inl rfl, .inl rfl⟩
  | device k x => exact ⟨_, .inr ⟨_, rfl⟩, .inl rfl⟩
  | hotspot b k x hc hh hi ho =>
    refine ⟨_, .inr ⟨{ dev := k, access := x }, rfl⟩, ?_⟩
    rcases switch_cases (hotBank b.bankCount a) b s with ⟨-, ht⟩ | ⟨hl, ht⟩
    · exact .inl (by rw [ht, State.called])
    · exact .inr ⟨b, _, hc, hl, hh, hi, fun h1 => Nat.mod_lt _ h1, by rw [ht, State.called, selectBank_calls]⟩

/-- What no bus access touches. -/
theorem AccessLeaves.frame {a : BusAddr} {s u : State} (h : AccessLeaves a s u) :
    u.store = s.store ∧ u.tag = s.tag ∧ u.installed = s.installed ∧ u.diag = s.diag ∧ u.pending = s.pending ∧
      u.reentries = s.reentries := by
  obtain ⟨calls, -, rfl | ⟨b, n, -, -, -, -, -, rfl⟩⟩ := h.cases <;> simp

/-- Everything a step can do, by the forms of `Changes`. -/
theorem step_changes {s t : State} (h : step s = .next t) :
    t = s ∨ ∃ tx rest i, s.pending = tx :: rest ∧ decode s.variant tx = .instr i ∧
      Changes { s with pending := rest } i t := by
  rcases step_next h with ⟨-, ht⟩ | ⟨tx, rest, i, hp, hd, he⟩
  · exact .inl ht
  · exact .inr ⟨tx, rest, i, hp, hd, exec_changes he⟩

/-! ### The invariant -/

/-- A Multi state keeps the invariant when only its bank state changes, within the geometry. -/
theorem State.Inv.of_banks {s t : State} {b c : Banks} (h : s.Inv) (hb : s.cart = .multi b) (hc : t.cart = .multi c)
    (hn : c.bankCount = b.bankCount) (hlt : c.bank < b.bankCount) (hg : t.tag = s.tag) (hs : t.store = s.store)
    (hf : t.installed = true → t.cart.forwardsOutside) : t.Inv := by
  obtain ⟨hcan, hbound, hshape, htag, -⟩ := h
  rw [hb] at hshape
  obtain ⟨h1, hmax, hsize, -⟩ := hshape
  refine ⟨hs ▸ hcan, hs ▸ hbound, ?_, ?_, hf⟩
  · rw [hc, hs]
    exact ⟨hn ▸ h1, hn ▸ hmax, hn ▸ hsize, hn ▸ hlt⟩
  · rw [hg, htag, State.variant_of_multi hb, State.variant_of_multi hc]

/-- A bank select inside the geometry (R29, R133). -/
theorem State.Inv.of_selectBank {s : State} {b : Banks} {n : Nat} (h : s.Inv) (hc : s.cart = .multi b)
    (hn : 1 ≤ b.bankCount → n < b.bankCount) : (selectBank n b s).Inv :=
  h.of_banks hc (selectBank_cart n b s) rfl (hn (h.bankCount_pos hc)) (by simp) (by simp) fun hi => by
    have := h.forwards (by simpa using hi)
    rw [hc] at this
    rw [selectBank_cart]
    exact this

/-- A change of the lock (R30). -/
theorem State.Inv.of_lock {s t : State} {b : Banks} {l : Bool} (h : s.Inv) (hc : s.cart = .multi b)
    (ht : t.cart = .multi { b with bankLocked := l }) (hg : t.tag = s.tag) (hs : t.store = s.store)
    (hi : t.installed = s.installed) : t.Inv := by
  have hshape := h.shape
  rw [hc] at hshape
  obtain ⟨-, -, -, hlt⟩ := hshape
  refine h.of_banks hc ht rfl hlt hg hs fun h1 => ?_
  have := h.forwards (hi ▸ h1)
  rw [hc] at this
  rw [ht]
  exact this

/-- A patch inside the store (R71). -/
theorem State.Inv.of_patchAt {s : State} {i : Nat} (h : s.Inv) (hi : i < s.store.size) (v : Byte) :
    (patchAt i v s).Inv := by
  refine ⟨by simpa using Memory.wf_write h.canonical i v, fun c hc => ?_, by simpa using h.shape,
    by simpa [State.variant] using h.tag, by simpa using h.forwards⟩
  simp only [patchAt_store, Store.write_cells, Store.write_size] at hc ⊢
  rcases Memory.mem_write hc with rfl | hc
  · exact hi
  · exact h.bounded c hc

/-- A new cartridge with bytes that fit its store, whatever stood before (R110, R130). -/
theorem State.inv_constructed {cart : Cart} {size : Nat} {bytes : List Byte} (s : State) (hlen : bytes.length ≤ size)
    (hshape : cart.shapeOk size) :
    (constructed cart (Config.tagOf cart.variant) (Store.ofBytes size bytes) s).Inv := by
  refine ⟨Memory.wf_ofBytes bytes, fun c hc => ?_, hshape, rfl, fun h => by simp at h⟩
  exact Nat.lt_of_lt_of_le (Memory.mem_ofBytes hc) hlen

/-- An image M.CONSTRUCT accepts has a legal number of banks and fills them (R11, R130). -/
theorem shapeOk_of_goodMultiImageSize {n : Nat} {captured : Vector Desc 32} (h : goodMultiImageSize n = true) :
    (Cart.multi { bankCount := n / Config.bankSize, bank := n / Config.bankSize - 1, bankLocked := false,
                  captured := captured }).shapeOk n := by
  simp only [goodMultiImageSize, Config.bankSize, Config.maxBanks] at h
  have h := of_decide_eq_true h
  simp only [Cart.shapeOk, Config.bankSize, Config.maxBanks]
  omega

/-- The captures of an accepted install all lie outside the cartridge (R137, R145). -/
theorem forwardsOutside_captureAll {t : PageTable} (h : installObstacle t = none) (n k : Nat) (l : Bool) :
    (Cart.multi { bankCount := n, bank := k, bankLocked := l, captured := captureAll t }).forwardsOutside := by
  intro i
  obtain ⟨d, hd, ho⟩ := (installObstacle_eq_none_iff t).1 h i
  rw [Banks.slot_captureAll, hd]
  exact ho

/-- A Fixed cartridge forwards nothing, so `installed` is free there (R113). -/
theorem State.Inv.of_fixed {s t : State} (h : s.Inv) (hf : s.cart = .fixed) (hc : t.cart = s.cart) (hg : t.tag = s.tag)
    (hs : t.store = s.store) : t.Inv := by
  obtain ⟨hcan, hbound, hshape, htag, -⟩ := h
  refine ⟨hs ▸ hcan, hs ▸ hbound, hs ▸ hc ▸ hshape, ?_, fun _ => ?_⟩
  · rw [hg, htag, State.variant, State.variant, hc]
  · rw [hc, hf]
    trivial

/-- M.INSTALL: the startup bank and the captures (R137). -/
theorem State.Inv.of_mInstall {s t : State} {b : Banks} (h : s.Inv) (hc : s.cart = .multi b)
    (ho : installObstacle s.pt = none)
    (ht : t.cart = .multi { b with bank := b.startBank, captured := captureAll s.pt }) (hg : t.tag = s.tag)
    (hs : t.store = s.store) : t.Inv := by
  have hpos := h.bankCount_pos hc
  refine h.of_banks hc ht rfl ?_ hg hs fun _ => ?_
  · show b.bankCount - 1 < b.bankCount
    omega
  · rw [ht]
    exact forwardsOutside_captureAll ho _ _ _

/-- Every operation keeps the invariant. -/
theorem State.Inv.of_changes {s t : State} {i : Instr} (h : s.Inv) (hch : Changes s i t) : t.Inv := by
  cases hch with
  | access _ a u r hi hu =>
    obtain ⟨calls, -, rfl | ⟨b, n, hc, -, -, -, hn, rfl⟩⟩ := hu.cases
    · exact h.congr rfl rfl rfl rfl
    · exact (h.of_selectBank hc hn).congr (by simp) (by simp) (by simp) (by simp)
  | fConstruct image n hn =>
    exact State.inv_constructed s (by simpa [hn] using fixedCopied_le_size n) (fixedStoreSize_mem n)
  | mConstruct image hn => exact State.inv_constructed s (Nat.le_refl _) (shapeOk_of_goodMultiImageSize hn)
  | fInstall hc => exact h.of_fixed hc (by simp) (by simp) (by simp)
  | mInstall b hc _ ho => exact h.of_mInstall hc ho (by simp) (by simp) (by simp)
  | select _ b n r _ hc _ hn => exact (h.of_selectBank hc hn).congr (by simp) (by simp) (by simp) (by simp)
  | fPatch a v hc =>
    have hsize := h.shape
    rw [hc] at hsize
    obtain ⟨k, -, -, hk⟩ := fixedSizes_pow hsize
    exact h.of_patchAt (fixedOffset_lt (hk ▸ Nat.two_pow_pos k) _) v
  | mPatch a v b hc =>
    have hshape := h.shape
    rw [hc] at hshape
    obtain ⟨-, -, hsize, hlt⟩ := hshape
    exact h.of_patchAt (hsize ▸ bankOffset_lt hlt _) v
  | lockbank b hc => exact h.of_lock hc rfl rfl rfl rfl
  | unlockbank b hc => exact h.of_lock hc rfl rfl rfl rfl
  | _ => exact h.congr (by simp) (by simp) (by simp) (by simp)

/-- Settles O10, by cases on what the step's operation can change. -/
theorem stepKeepsInvariant : Obligations.StepKeepsInvariant := by
  intro s t h hstep
  rcases step_changes hstep with rfl | ⟨tx, rest, i, -, -, hch⟩
  · exact h
  · exact State.Inv.of_changes (s := { s with pending := rest }) (h.congr rfl rfl rfl rfl) hch

/-! ### Table coherence -/

theorem State.coherent_of_not_installed {s : State} (h : s.installed = false) : s.Coherent :=
  ⟨fun hi => by simp [h] at hi, fun hi => by simp [h] at hi⟩

/-- A bank select republishes the window and touches no hotspot page (R36, R37, R133). -/
theorem State.coherent_selectBank {s : State} {b : Banks} {n : Nat}
    (hhot : s.installed = true → ∀ p, isHotspotPage p = true → PageTable.get s.pt p = .mapped hotDesc) :
    (selectBank n b s).Coherent := by
  refine ⟨fun _ p hp => ?_, fun hi _ p hp => ?_⟩
  · rw [selectBank_pt, PageTable.get_publish, if_pos hp, State.winDesc_of_multi (selectBank_cart n b s)]
  · rw [selectBank_pt, PageTable.get_publish, if_neg (not_window_of_hotspot_page hp)]
    exact hhot (by simpa using hi) p hp

theorem State.Coherent.of_selectBank {s : State} {b : Banks} (h : s.Coherent) (hc : s.cart = .multi b) (n : Nat) :
    (selectBank n b s).Coherent :=
  State.coherent_selectBank fun hi => h.hotspot hi (State.variant_of_multi hc)

/-- The lock is no part of any descriptor. -/
theorem State.Coherent.of_lock {s t : State} {b : Banks} {l : Bool} (h : s.Coherent) (hc : s.cart = .multi b)
    (ht : t.cart = .multi { b with bankLocked := l }) (hp : t.pt = s.pt) (hi : t.installed = s.installed) :
    t.Coherent := by
  refine ⟨fun h1 p hw => ?_, fun h1 _ p hw => ?_⟩
  · rw [hp, h.window (hi ▸ h1) p hw, State.winDesc_of_multi hc, State.winDesc_of_multi ht]
  · rw [hp]
    exact h.hotspot (hi ▸ h1) (State.variant_of_multi hc) p hw

theorem Cart.firstPage_le (c : Cart) : c.firstPage ≤ 64 := by cases c <;> simp [Cart.firstPage]

/-- A SETPAGE below the cartridge's pages (R204). -/
theorem State.Coherent.of_set {s t : State} {q : PageIdx} {d : Desc} (h : s.Coherent) (hq : q.toNat < s.cart.firstPage)
    (hp : t.pt = PageTable.set s.pt q d) (hc : t.cart = s.cart) (hs : t.store.size = s.store.size)
    (hi : t.installed = s.installed) : t.Coherent := by
  have hsame : ∀ p : PageIdx, s.cart.firstPage ≤ p.toNat → PageTable.get t.pt p = PageTable.get s.pt p := by
    intro p hle
    rw [hp, PageTable.get_set, if_neg]
    rintro rfl
    omega
  refine ⟨fun h1 p hw => ?_, fun h1 hv p hw => ?_⟩
  · rw [hsame p (Nat.le_trans s.cart.firstPage_le ((isWindowPage_iff p).1 hw)), State.winDesc_congr hc hs]
    exact h.window (hi ▸ h1) p hw
  · rw [State.variant, hc] at hv
    obtain ⟨b, hb⟩ := State.cart_of_variant_multi hv
    have hle : s.cart.firstPage ≤ p.toNat := by rw [hb]; exact ((isHotspotPage_iff p).1 hw).1
    rw [hsame p hle]
    exact h.hotspot (hi ▸ h1) hv p hw

/-- F.INSTALL publishes the Fixed window (R36, R113). -/
theorem State.coherent_of_fixed_window {t : State} {pt : PageTable} (hc : t.cart = .fixed)
    (hp : t.pt = PageTable.publish pt isWindowPage (fixedWinDesc t.store.size)) : t.Coherent := by
  refine ⟨fun _ p hw => ?_, fun _ hv => ?_⟩
  · rw [hp, PageTable.get_publish, if_pos hw, State.winDesc_of_fixed hc]
  · rw [State.variant_of_fixed hc] at hv
    cases hv

/-- M.INSTALL publishes the hotspot pages, then the window of the startup bank (R36, R37, R137). -/
theorem State.coherent_mInstall (n : Nat) (b : Banks) (s : State) :
    (selectBank n b { s with pt := PageTable.publish s.pt isHotspotPage (fun _ => hotDesc), installed := true }).Coherent :=
  State.coherent_selectBank fun _ p hp => by rw [PageTable.get_publish, if_pos hp]

/-- Every operation but a SETPAGE over the cartridge's pages keeps the table coherent. -/
theorem State.Coherent.of_changes {s t : State} {i : Instr} (h : s.Coherent) (hl : leavesCartPages s.cart i = true)
    (hch : Changes s i t) : t.Coherent := by
  cases hch with
  | access _ a u r hi hu =>
    obtain ⟨calls, -, rfl | ⟨b, n, hc, -, -, -, -, rfl⟩⟩ := hu.cases
    · exact h.congr rfl rfl rfl rfl
    · exact (h.of_selectBank hc n).congr (by simp) (by simp) (by simp) (by simp)
  | setpage p d q hq =>
    have hlt : q.toNat < s.cart.firstPage := by
      rw [(pageArg?_eq_some hq).2]
      exact of_decide_eq_true hl
    exact h.of_set (d := d) hlt (by simp) (by simp) (by simp) (by simp)
  | fConstruct => exact State.coherent_of_not_installed rfl
  | mConstruct => exact State.coherent_of_not_installed rfl
  | fInstall hc => exact State.coherent_of_fixed_window (pt := s.pt) (by simpa using hc) (by simp)
  | mInstall b => exact (State.coherent_mInstall _ _ s).congr rfl rfl rfl rfl
  | select _ b n r _ hc => exact (h.of_selectBank hc n).congr (by simp) (by simp) (by simp) (by simp)
  | lockbank b hc => exact h.of_lock hc rfl rfl rfl
  | unlockbank b hc => exact h.of_lock hc rfl rfl rfl
  | _ => exact h.congr (by simp) (by simp) (by simp) (by simp)

theorem State.leavesCartPages_of_next {s : State} {tx : Transaction} {rest : List Transaction} {i : Instr}
    (h : s.nextLeavesCartPages = true) (hp : s.pending = tx :: rest) (hd : decode s.variant tx = .instr i) :
    leavesCartPages s.cart i = true := by
  simpa [State.nextLeavesCartPages, fetch_cons hp, hd] using h

/-- Settles O12, by cases on what the step's operation can change. -/
theorem stepKeepsTableCoherence : Obligations.StepKeepsTableCoherence := by
  intro s t h hnext hstep
  rcases step_changes hstep with rfl | ⟨tx, rest, i, hp, hd, hch⟩
  · exact h
  · have hl := State.leavesCartPages_of_next hnext hp hd
    exact State.Coherent.of_changes (s := { s with pending := rest }) (h.congr rfl rfl rfl rfl) hl hch

/-! ### Who may change the flag -/

theorem Changes.flag_falls {s t : State} {i : Instr} (h : Changes s i t) (hs : s.bankChanged = true)
    (ht : t.bankChanged = false) : i = .clearbankchanged ∨ isConstruct i = true := by
  cases h with
  | clear => exact .inl rfl
  | fConstruct => exact .inr rfl
  | mConstruct => exact .inr rfl
  | access _ a u r hi hu =>
    obtain ⟨calls, -, rfl | ⟨b, n, -, -, -, -, -, rfl⟩⟩ := hu.cases <;> simp [hs] at ht
  | _ => simp [hs] at ht

theorem Changes.flag_rises {s t : State} {i : Instr} (h : Changes s i t) (hs : s.bankChanged = false)
    (ht : t.bankChanged = true) :
    (∃ a v, i = .fPatch a v ∨ i = .mPatch a v) ∨ i = .fReset ∨ i = .mReset ∨ i = .mInstall ∨
      (∃ n, i = .mBank n ∧ t.reply = .bool true) ∨ (∃ st st', i = .mLoad st ∧ t.reply = .streamed true st') ∨
      (isHotspotAccess i ∧ ∃ b, s.cart = .multi b ∧ b.bankLocked = false) := by
  cases h with
  | access _ a u r hi hu =>
    obtain ⟨calls, -, rfl | ⟨b, n, hc, hl, hh, -, -, rfl⟩⟩ := hu.cases
    · simp [hs] at ht
    · exact .inr (.inr (.inr (.inr (.inr (.inr ⟨isHotspotAccess_of_accessArg hi hh, b, hc, hl⟩)))))
  | select _ b n r hi =>
    obtain ⟨rfl, -⟩ | ⟨m, rfl, -, rfl⟩ | ⟨st, st', rfl, rfl⟩ := hi <;> simp
  | fPatch a v => exact .inl ⟨a, v, .inl rfl⟩
  | mPatch a v => exact .inl ⟨a, v, .inr rfl⟩
  | fReset => exact .inr (.inl rfl)
  | mInstall => simp
  | _ => simp [hs] at ht

/-- Settles O50, from what an operation can change. -/
theorem flagChangesOnlyByItsRules : Obligations.FlagChangesOnlyByItsRules := fun _ _ _ h =>
  ⟨(exec_changes h).flag_falls, (exec_changes h).flag_rises⟩

/-! ### Who may change the bank state -/

theorem State.banks_unique {s : State} {b c : Banks} (hb : s.cart = .multi b) (hc : s.cart = .multi c) : c = b := by
  rw [hb] at hc
  exact (Cart.multi.inj hc).symm

/-- Everything an operation other than CONSTRUCT can do to the bank state of a Multi cartridge. -/
theorem Changes.banks_cases {s t : State} {i : Instr} {b c : Banks} (h : Changes s i t) (hk : isConstruct i = false)
    (hb : s.cart = .multi b) (hc : t.cart = .multi c) :
    c = b ∨
    (∃ l, c = { b with bankLocked := l } ∧ (i = .lockbank ∨ i = .unlockbank)) ∨
    (∃ n, c = { b with bank := n } ∧
      (((isHotspotAccess i ∨ ∃ m, i = .mBank m) ∧ b.bankLocked = false) ∨ i = .mReset ∨ ∃ st, i = .mLoad st)) ∨
    (∃ n v, c = { b with bank := n, captured := v } ∧ i = .mInstall) := by
  cases h with
  | access _ a u r hi hu =>
    obtain ⟨calls, -, rfl | ⟨b', n, hb', hl, hh, -, -, rfl⟩⟩ := hu.cases
    · exact .inl (by simpa [hb] using hc.symm)
    · obtain rfl := State.banks_unique hb hb'
      have hc' : { b' with bank := n } = c := by simpa using hc
      exact .inr (.inr (.inl ⟨n, hc'.symm, .inl ⟨.inl (isHotspotAccess_of_accessArg hi hh), hl⟩⟩))
  | select _ b' n r hi hb' =>
    obtain rfl := State.banks_unique hb hb'
    have hc' : { b' with bank := n } = c := by simpa using hc
    refine .inr (.inr (.inl ⟨n, hc'.symm, ?_⟩))
    obtain ⟨rfl, -⟩ | ⟨m, rfl, hl, -⟩ | ⟨st, st', rfl, -⟩ := hi
    · exact .inr (.inl rfl)
    · exact .inl ⟨.inr ⟨m, rfl⟩, hl⟩
    · exact .inr (.inr ⟨st, rfl⟩)
  | mInstall b' hb' =>
    obtain rfl := State.banks_unique hb hb'
    exact .inr (.inr (.inr ⟨_, _, by simpa using hc.symm, rfl⟩))
  | lockbank b' hb' =>
    obtain rfl := State.banks_unique hb hb'
    exact .inr (.inl ⟨true, by simpa using hc.symm, .inl rfl⟩)
  | unlockbank b' hb' =>
    obtain rfl := State.banks_unique hb hb'
    exact .inr (.inl ⟨false, by simpa using hc.symm, .inr rfl⟩)
  | fConstruct => cases hk
  | mConstruct => cases hk
  | _ => exact .inl (by simpa [hb] using hc.symm)

/-- Settles O51, from what an operation can do to the bank state. -/
theorem bankStateChangesOnlyByItsRules : Obligations.BankStateChangesOnlyByItsRules := by
  intro s t i b c h hk hb hc
  obtain rfl | ⟨l, rfl, hi⟩ | ⟨n, rfl, hi⟩ | ⟨n, v, rfl, rfl⟩ := (exec_changes h).banks_cases hk hb hc
  · simp
  · simp [hi]
  · refine ⟨fun _ => ?_, by simp, rfl, by simp⟩
    obtain hi | hi | hi := hi
    · exact .inl hi
    · exact .inr (.inl hi)
    · exact .inr (.inr (.inr hi))
  · simp

/-! ### Who may change the store and the cartridge's identity -/

theorem Changes.store_of_ne {s t : State} {i : Instr} (h : Changes s i t) (hk : isConstruct i = false)
    (hne : t.store ≠ s.store) : ∃ a v, i = .fPatch a v ∨ i = .mPatch a v := by
  cases h with
  | fPatch a v => exact ⟨a, v, .inl rfl⟩
  | mPatch a v => exact ⟨a, v, .inr rfl⟩
  | access _ a u r hi hu => simp [hu.frame] at hne
  | fConstruct => cases hk
  | mConstruct => cases hk
  | _ => simp at hne

/-- The store's size, the variant and the tag (R24, R25, R27, R28). -/
theorem Changes.identity_same {s t : State} {i : Instr} (h : Changes s i t) (hk : isConstruct i = false) :
    t.store.size = s.store.size ∧ t.variant = s.variant ∧ t.tag = s.tag := by
  cases h with
  | access _ a u r hi hu =>
    obtain ⟨calls, -, rfl | ⟨b, n, hc, -, -, -, -, rfl⟩⟩ := hu.cases
    · exact ⟨rfl, rfl, rfl⟩
    · simp [State.variant, hc, Cart.variant]
  | fConstruct => cases hk
  | mConstruct => cases hk
  | mInstall b hc => simp [State.variant, hc, Cart.variant]
  | select _ b n r _ hc => simp [State.variant, hc, Cart.variant]
  | lockbank b hc => simp [State.variant, hc, Cart.variant]
  | unlockbank b hc => simp [State.variant, hc, Cart.variant]
  | _ => simp [State.variant]

/-- `installed` stays, but for INSTALL, which sets it (R33). -/
theorem Changes.installed_cases {s t : State} {i : Instr} (h : Changes s i t) (hk : isConstruct i = false) :
    t.installed = s.installed ∨ (t.installed = true ∧ (i = .fInstall ∨ i = .mInstall)) := by
  cases h with
  | access _ a u r hi hu => exact .inl (by simp [hu.frame])
  | fInstall => exact .inr ⟨rfl, .inl rfl⟩
  | mInstall => exact .inr ⟨rfl, .inr rfl⟩
  | fConstruct => cases hk
  | mConstruct => cases hk
  | _ => exact .inl (by simp)

/-- Settles O52, from what an operation can do to the store, the identity and `installed`. -/
theorem storeAndIdentityChangeOnlyByTheirRules : Obligations.StoreAndIdentityChangeOnlyByTheirRules := by
  intro s t i h hk
  have hch := exec_changes h
  obtain ⟨hsize, hvariant, htag⟩ := hch.identity_same hk
  refine ⟨hch.store_of_ne hk, hsize, hvariant, htag, ?_⟩
  obtain hsame | ⟨hset, hi⟩ := hch.installed_cases hk
  · exact ⟨fun h1 => hsame.trans h1, fun h0 h1 => by simp [hsame, h0] at h1⟩
  · exact ⟨fun _ => hset, fun _ _ => hi⟩

/-! ### Who may change a page-table entry -/

theorem selectBank_window_of_ne {n : Nat} {b : Banks} {s : State} {p : PageIdx}
    (h : PageTable.get (selectBank n b s).pt p ≠ PageTable.get s.pt p) : 64 ≤ p.toNat := by
  rw [selectBank_pt] at h
  exact (isWindowPage_iff p).1 (PageTable.which_of_publish_ne h)

theorem Changes.page_of_ne {s t : State} {i : Instr} {p : PageIdx} (h : Changes s i t) (hk : isConstruct i = false)
    (hne : PageTable.get t.pt p ≠ PageTable.get s.pt p) :
    (∃ q d, i = .setpage q d ∧ q.toNat = p.toNat) ∨ (32 ≤ p.toNat ∧ i = .mInstall) ∨
      (64 ≤ p.toNat ∧
        (i = .fInstall ∨ i = .mReset ∨ (∃ n, i = .mBank n) ∨ (∃ st, i = .mLoad st) ∨ isHotspotAccess i)) := by
  cases h with
  | setpage q d q' hq =>
    refine .inl ⟨q, d, rfl, ?_⟩
    rw [← (pageArg?_eq_some hq).2]
    by_contra hp
    refine hne ?_
    rw [State.answer_pt, PageTable.get_set, if_neg (fun he => hp (congrArg BitVec.toNat he.symm))]
  | mInstall b =>
    refine .inr (.inl ⟨?_, rfl⟩)
    by_contra hp
    refine hne ?_
    rw [State.answer_pt, selectBank_pt, PageTable.get_publish, if_neg (by rw [isWindowPage_iff]; omega),
      PageTable.get_publish, if_neg (by rw [isHotspotPage_iff]; omega)]
  | fInstall =>
    dsimp only [State.answer_pt] at hne
    exact .inr (.inr ⟨(isWindowPage_iff p).1 (PageTable.which_of_publish_ne hne), .inl rfl⟩)
  | select _ b n r hi =>
    rw [State.answer_pt] at hne
    refine .inr (.inr ⟨selectBank_window_of_ne hne, ?_⟩)
    obtain ⟨rfl, -⟩ | ⟨m, rfl, -⟩ | ⟨st, st', rfl, -⟩ := hi <;> simp
  | access _ a u r hi hu =>
    obtain ⟨calls, -, rfl | ⟨b, n, -, -, hh, -, -, rfl⟩⟩ := hu.cases
    · exact absurd rfl hne
    · dsimp only [State.answer_pt] at hne
      have hacc := isHotspotAccess_of_accessArg hi hh
      exact .inr (.inr ⟨selectBank_window_of_ne hne, .inr (.inr (.inr (.inr hacc)))⟩)
  | fConstruct => cases hk
  | mConstruct => cases hk
  | _ => simp at hne

/-- Settles O53, from what an operation can do to a page-table entry. -/
theorem pagesChangeOnlyByTheirRules : Obligations.PagesChangeOnlyByTheirRules := fun _ _ _ _ h hk hne =>
  (exec_changes h).page_of_ne hk hne

/-! ### Who calls a device and who reports -/

theorem Changes.calls_cases {s t : State} {i : Instr} (h : Changes s i t) :
    t.calls = s.calls ∨ ∃ c, t.calls = s.calls ++ [c] ∧ (busOperand i).isSome = true := by
  cases h with
  | access _ a u r hi hu =>
    have hop : (busOperand i).isSome = true := by rw [busOperand_eq_accessArg, hi]; rfl
    obtain ⟨calls, hcalls, rfl | ⟨b, n, -, -, -, -, -, rfl⟩⟩ := hu.cases <;>
      exact hcalls.imp_right fun ⟨c, hc⟩ => ⟨c, hc, hop⟩
  | _ => exact .inl (by simp)

theorem diagLineOf_eq_some {i : Instr} {line : DiagLine} (h : diagLineOf i = some line) :
    ((∃ st, i = .fSave st ∨ i = .mSave st) ∧ line = .save) ∨ ((∃ st, i = .fLoad st ∨ i = .mLoad st) ∧ line = .load) := by
  cases i with
  | fSave st => cases h; exact .inl ⟨⟨st, .inl rfl⟩, rfl⟩
  | mSave st => cases h; exact .inl ⟨⟨st, .inr rfl⟩, rfl⟩
  | fLoad st => cases h; exact .inr ⟨⟨st, .inl rfl⟩, rfl⟩
  | mLoad st => cases h; exact .inr ⟨⟨st, .inr rfl⟩, rfl⟩
  | _ => cases h

theorem Changes.diag_cases {s t : State} {i : Instr} (h : Changes s i t) (hk : isConstruct i = false) :
    t.diag = s.diag ∨ ∃ line, diagLineOf i = some line ∧ t.diag = s.diag ++ [line] := by
  cases h with
  | streamError _ line st hi => exact .inr ⟨line, hi, rfl⟩
  | access _ a u r hi hu => exact .inl (by simp [hu.frame])
  | fConstruct => cases hk
  | mConstruct => cases hk
  | _ => exact .inl (by simp)

/-- The queue and the run's re-entries are inputs of the model (log entries 1 and 9). -/
theorem Changes.inputs_same {s t : State} {i : Instr} (h : Changes s i t) :
    t.pending = s.pending ∧ t.reentries = s.reentries := by
  cases h with
  | access _ a u r hi hu => simp [hu.frame]
  | _ => simp

/-- Settles O54, from what an operation can do to the calls, the diagnostics and the run's inputs. -/
theorem devicesAndDiagnosticsChangeOnlyByTheirRules : Obligations.DevicesAndDiagnosticsChangeOnlyByTheirRules := by
  intro s t i h
  have hch := exec_changes h
  refine ⟨hch.calls_cases, fun hk => ?_, hch.inputs_same⟩
  obtain hsame | ⟨line, hline, hdiag⟩ := hch.diag_cases hk
  · exact .inl hsame
  · obtain ⟨hi, rfl⟩ | ⟨hi, rfl⟩ := diagLineOf_eq_some hline
    · exact .inr (.inl ⟨hi, hdiag⟩)
    · exact .inr (.inr ⟨hi, hdiag⟩)

/-! ### The step, power-on and unmapped pages -/

theorem step_of_empty {s : State} (h : s.pending = []) : step s = .next s := by
  simp [step, fetch_nil h]

theorem step_of_instr {s : State} {t : Transaction} {rest : List Transaction} {i : Instr} (hp : s.pending = t :: rest)
    (hd : decode s.variant t = .instr i) : step s = exec i { s with pending := rest } := by
  simp [step, fetch_cons hp, hd]

theorem step_of_rejected {s : State} {t : Transaction} {rest : List Transaction} {r : Reject} (hp : s.pending = t :: rest)
    (hd : decode s.variant t = .rejected r) : step s = .refused .noSuchOperation := by
  simp [step, fetch_cons hp, hd]

/-- Settles O6, by the three outcomes of fetching and decoding. -/
theorem stepRunsTheDecodedOperation : Obligations.StepRunsTheDecodedOperation :=
  ⟨fun _ => step_of_empty, fun _ _ _ _ => step_of_instr, fun _ _ _ _ => step_of_rejected⟩

/-- The reset state's table is the empty one (R22). -/
theorem reset_page_unmapped (p : PageIdx) : PageTable.get State.reset.pt p = .unmapped := PageTable.get_empty p

/-- Settles O8, by the values of `State.reset`. -/
theorem resetHoldsPowerOnValues : Obligations.ResetHoldsPowerOnValues :=
  ⟨reset_page_unmapped, rfl, rfl, rfl, rfl, resetBanks, rfl, rfl, rfl, rfl⟩

theorem execRead_of_unmapped {s : State} {a : Arg} (h : PageTable.get s.pt (pageOf (busAddr a)) = .unmapped) :
    execRead a s = .refused .unmappedPage := by simp [execRead, h]

theorem execWrite_of_unmapped {s : State} {a : Arg} (h : PageTable.get s.pt (pageOf (busAddr a)) = .unmapped) (v : Byte) :
    execWrite a v s = .refused .unmappedPage := by simp [execWrite, h]

/-- Settles O13, by the refusing arm of READ and WRITE. -/
theorem unmappedPagesAreRefused : Obligations.UnmappedPagesAreRefused :=
  ⟨reset_page_unmapped, fun _ _ v h => ⟨execRead_of_unmapped h, execWrite_of_unmapped h v⟩⟩

end Sys2Proof.Machine

/-! PROOFS. The statements of 20_memory.md. A coherent table sends every window access to the cartridge; its peek and poke
then decide the result. -/

namespace Sys2Proof.Machine

/-! ### A bus access of a mapped page -/

theorem execRead_of_mapped {s : State} {a : Arg} {d : Desc} (h : PageTable.get s.pt (pageOf (busAddr a)) = .mapped d) :
    execRead a s = deliver .byte (devPeek d.owner (busAddr a) s) := by simp [execRead, h]

theorem execWrite_of_mapped {s : State} {a : Arg} {d : Desc} (h : PageTable.get s.pt (pageOf (busAddr a)) = .mapped d)
    (v : Byte) : execWrite a v s = deliver .bool (devPoke d.owner (busAddr a) v s) := by simp [execWrite, h]

/-- Reducing an operand to the bus width keeps its window bit (R4, R84). -/
@[simp] theorem inWindow_busAddr (a : Arg) : inWindow (busAddr a) = a.getLsbD 12 := by simp [inWindow, busAddr]

/-- The cartridge answers a window READ (R36, R100). -/
theorem State.Coherent.execRead_window {s : State} (h : s.Coherent) (hi : s.installed = true) {a : Arg}
    (hw : a.getLsbD 12 = true) : execRead a s = deliver .byte (devPeek .cart (busAddr a) s) := by
  have hentry := h.window_entry hi ((inWindow_busAddr a).trans hw)
  rw [execRead_of_mapped hentry, State.winDesc_owner]

/-- The cartridge answers a window WRITE (R36, R101). -/
theorem State.Coherent.execWrite_window {s : State} (h : s.Coherent) (hi : s.installed = true) {a : Arg}
    (hw : a.getLsbD 12 = true) (v : Byte) : execWrite a v s = deliver .bool (devPoke .cart (busAddr a) v s) := by
  have hentry := h.window_entry hi ((inWindow_busAddr a).trans hw)
  rw [execWrite_of_mapped hentry, State.winDesc_owner]

/-! ### The byte a translated address reads -/

/-- The bus hands F.PEEK only 13 address bits, which are all that a legal store size uses (R57). -/
theorem fixedByte_busAddr {s : State} (h : s.store.size ∈ fixedSizes) (a : Arg) :
    fixedByte ((busAddr a).setWidth 16) s = s.store.read (a.toNat &&& (s.store.size - 1)) := by
  have hoff : fixedOffset s.store.size ((busAddr a).setWidth 16).toNat = fixedOffset s.store.size a.toNat := by
    rw [← fixedOffset_bus h, busAddr_setWidth, fixedOffset_bus h]
  rw [fixedByte, hoff, fixedOffset]

/-- The in-bank offset is read from the operand's low 12 bits (R58). -/
theorem bankByte_busAddr (a : Arg) (b : Banks) (s : State) :
    bankByte (busAddr a) b s = s.store.read (b.bank * 4096 + (a.toNat &&& 0x0FFF)) := by
  rw [bankByte, bankOffset_eq, busAddr_mod_4096, and_0xFFF]

theorem State.Inv.fixedSize {s : State} (h : s.Inv) (hc : s.cart = .fixed) : s.store.size ∈ fixedSizes := by
  have hshape := h.shape
  rwa [hc] at hshape

/-! ### Window accesses -/

/-- Settles O17: the table sends the access to the cartridge, whose F.PEEK masks the address and whose F.POKE answers `false`. -/
theorem fixedWindowAccess : Obligations.FixedWindowAccess := by
  intro s a v hinv hcoh hc hi hw
  constructor
  · calc execRead a s
      _ = deliver .byte (devPeek .cart (busAddr a) s) := hcoh.execRead_window hi hw
      _ = .next (s.answer (.byte (s.store.read (a.toNat &&& (s.store.size - 1))))) := by
        rw [devPeek_fixed hc, deliver_of_next, fixedByte_busAddr (hinv.fixedSize hc)]
  · calc execWrite a v s
      _ = deliver .bool (devPoke .cart (busAddr a) v s) := hcoh.execWrite_window hi hw v
      _ = .next (s.answer (.bool false)) := by rw [devPoke_fixed hc, deliver_of_next]

/-- Settles O18: the table sends the access to the cartridge, and a window address is outside the hotspot region, so M.PEEK
reads the active bank and M.POKE answers `false`. -/
theorem multiWindowAccess : Obligations.MultiWindowAccess := by
  intro s b a v hcoh hc hi hw
  have hout : inHotspot (busAddr ((busAddr a).setWidth 16)) = false := by
    rw [busAddr_setWidth]
    exact not_hotspot_of_window ((inWindow_busAddr a).trans hw)
  constructor
  · calc execRead a s
      _ = deliver .byte (devPeek .cart (busAddr a) s) := hcoh.execRead_window hi hw
      _ = .next (s.answer (.byte (s.store.read (b.bank * 4096 + (a.toNat &&& 0x0FFF))))) := by
        rw [devPeek_multi hc, multiPeek_outside hout, deliver_of_next, busAddr_setWidth, bankByte_busAddr]
  · calc execWrite a v s
      _ = deliver .bool (devPoke .cart (busAddr a) v s) := hcoh.execWrite_window hi hw v
      _ = .next (s.answer (.bool false)) := by rw [devPoke_multi hc, multiPoke_outside hout, deliver_of_next]

end Sys2Proof.Machine

/-! PROOFS. The statements of 30_encoding.md. The decoder is described twice: forwards, by one equation per selector of R81's
table, and backwards, by `decode_ofRow`, which says of which rows a decoded operation can come. -/

namespace Sys2Proof

/-! ### The decoder, one equation per selector (R81) -/

section
variable (v : Variant) (a : Arg) (d : Byte) (x : Beside)

@[simp] theorem decode_read : decode v { word := mkWord 0x00#8 a d, beside := x } = .instr (.read a) := by
  simp [decode]

@[simp] theorem decode_write : decode v { word := mkWord 0x01#8 a d, beside := x } = .instr (.write a d) := by
  simp [decode]

@[simp] theorem decode_getpage : decode v { word := mkWord 0x02#8 a d, beside := x } = .instr (.getpage a) := by
  simp [decode]

@[simp] theorem decode_setpage : decode v { word := mkWord 0x03#8 a d, beside := x } = .instr (.setpage a x.desc) := by
  simp [decode]

@[simp] theorem decode_construct : decode v { word := mkWord 0x0F#8 a d, beside := x } =
    byVariant x.variant (.fConstruct x.image x.requestedSize) (.mConstruct x.image) := by
  simp [decode]

@[simp] theorem decode_install : decode v { word := mkWord 0x10#8 a d, beside := x } =
    byVariant v .fInstall .mInstall := by
  simp [decode]

@[simp] theorem decode_reset : decode v { word := mkWord 0x11#8 a d, beside := x } = byVariant v .fReset .mReset := by
  simp [decode]

@[simp] theorem decode_peek : decode v { word := mkWord 0x12#8 a d, beside := x } =
    byVariant v (.fPeek a) (decodeMPeek a) := by
  simp [decode]

@[simp] theorem decode_poke : decode v { word := mkWord 0x13#8 a d, beside := x } =
    byVariant v (.fPoke a d) (decodeMPoke a d) := by
  simp [decode]

@[simp] theorem decode_patch : decode v { word := mkWord 0x14#8 a d, beside := x } =
    byVariant v (.fPatch a d) (.mPatch a d) := by
  simp [decode]

@[simp] theorem decode_bank : decode v { word := mkWord 0x15#8 a d, beside := x } =
    byVariant v (.fBank a) (.mBank a) := by
  simp [decode]

@[simp] theorem decode_getbank : decode v { word := mkWord 0x16#8 a d, beside := x } =
    byVariant v .fGetbank .mGetbank := by
  simp [decode]

@[simp] theorem decode_bankcount : decode v { word := mkWord 0x17#8 a d, beside := x } =
    byVariant v .fBankcount .mBankcount := by
  simp [decode]

@[simp] theorem decode_getimage : decode v { word := mkWord 0x18#8 a d, beside := x } =
    byVariant v .fGetimage .mGetimage := by
  simp [decode]

@[simp] theorem decode_tag : decode v { word := mkWord 0x19#8 a d, beside := x } = byVariant v .fTag .mTag := by
  simp [decode]

@[simp] theorem decode_save : decode v { word := mkWord 0x1A#8 a d, beside := x } =
    byVariant v (.fSave x.stream) (.mSave x.stream) := by
  simp [decode]

@[simp] theorem decode_load : decode v { word := mkWord 0x1B#8 a d, beside := x } =
    byVariant v (.fLoad x.stream) (.mLoad x.stream) := by
  simp [decode]

@[simp] theorem decode_lockbank : decode v { word := mkWord 0x20#8 a d, beside := x } =
    multiOnly v 0x20#8 .lockbank := by
  simp [decode]

@[simp] theorem decode_unlockbank : decode v { word := mkWord 0x21#8 a d, beside := x } =
    multiOnly v 0x21#8 .unlockbank := by
  simp [decode]

@[simp] theorem decode_bankchanged : decode v { word := mkWord 0x22#8 a d, beside := x } = .instr .bankchanged := by
  simp [decode]

@[simp] theorem decode_clearbankchanged : decode v { word := mkWord 0x23#8 a d, beside := x } =
    .instr .clearbankchanged := by
  simp [decode]

end

/-! ### The three rows of M.PEEK and of M.POKE (R84, R85) -/

section
variable {a : Arg}

theorem not_hotspot_not_window_of_low (h : Instr.wf (.mPeekLow a) = true) :
    Machine.inHotspot (Machine.busAddr a) = false ∧ Machine.inWindow (Machine.busAddr a) = false := by
  simpa [Instr.wf] using h

theorem decodeMPeek_of_hotspot (h : Machine.inHotspot (Machine.busAddr a) = true) :
    decodeMPeek a = .mPeekHotspot a := by
  simp [decodeMPeek, h]

theorem decodeMPeek_of_window (h : Machine.inWindow (Machine.busAddr a) = true) :
    decodeMPeek a = .mPeekWindow a := by
  simp [decodeMPeek, h, Machine.not_hotspot_of_window h]

theorem decodeMPeek_of_low (h : Instr.wf (.mPeekLow a) = true) : decodeMPeek a = .mPeekLow a := by
  simp [decodeMPeek, not_hotspot_not_window_of_low h]

theorem decodeMPoke_of_hotspot (h : Machine.inHotspot (Machine.busAddr a) = true) (v : Byte) :
    decodeMPoke a v = .mPokeHotspot a v := by
  simp [decodeMPoke, h]

theorem decodeMPoke_of_window (h : Machine.inWindow (Machine.busAddr a) = true) (v : Byte) :
    decodeMPoke a v = .mPokeWindow a v := by
  simp [decodeMPoke, h, Machine.not_hotspot_of_window h]

theorem decodeMPoke_of_low {v : Byte} (h : Instr.wf (.mPokeLow a v) = true) : decodeMPoke a v = .mPokeLow a v := by
  simp [decodeMPoke, not_hotspot_not_window_of_low h]

end

/-! ### Decoding an encoding -/

/-- The decoder inverts the encoder: the selector leads back to the row, the variant chooses within it, and for M.PEEK and
M.POKE the region of the address does. -/
theorem decode_encode {v : Variant} {i : Instr} (hw : i.wf = true) (he : i.existsIn v = true) :
    decode v (encode i) = .instr i := by
  cases i with
  | read | write | getpage | setpage | fConstruct | mConstruct | bankchanged | clearbankchanged =>
    simp [encode, Instr.sel, Instr.arg, Instr.data, Instr.beside]
  | fInstall | fReset | fPeek | fPoke | fPatch | fBank | fGetbank | fBankcount | fGetimage | fTag | fSave | fLoad =>
    obtain rfl : v = .fixed := eq_of_beq he
    simp [encode, Instr.sel, Instr.arg, Instr.data, Instr.beside]
  | mInstall | mReset | mPatch | mBank | mGetbank | mBankcount | mGetimage | mTag | mSave | mLoad | lockbank
  | unlockbank =>
    obtain rfl : v = .multi := eq_of_beq he
    simp [encode, Instr.sel, Instr.arg, Instr.data, Instr.beside]
  | mPeekHotspot a =>
    obtain rfl : v = .multi := eq_of_beq he
    simp [encode, Instr.sel, Instr.arg, decodeMPeek_of_hotspot hw]
  | mPeekWindow a =>
    obtain rfl : v = .multi := eq_of_beq he
    simp [encode, Instr.sel, Instr.arg, decodeMPeek_of_window hw]
  | mPeekLow a =>
    obtain rfl : v = .multi := eq_of_beq he
    simp [encode, Instr.sel, Instr.arg, decodeMPeek_of_low hw]
  | mPokeHotspot a d =>
    obtain rfl : v = .multi := eq_of_beq he
    simp [encode, Instr.sel, Instr.arg, Instr.data, decodeMPoke_of_hotspot hw]
  | mPokeWindow a d =>
    obtain rfl : v = .multi := eq_of_beq he
    simp [encode, Instr.sel, Instr.arg, Instr.data, decodeMPoke_of_window hw]
  | mPokeLow a d =>
    obtain rfl : v = .multi := eq_of_beq he
    simp [encode, Instr.sel, Instr.arg, Instr.data, decodeMPoke_of_low hw]

/-- Settles O1, by cases on the operation. -/
theorem decodeOfEncodeIsIdentity : Obligations.DecodeOfEncodeIsIdentity :=
  fun _ _ => decode_encode

/-- A bare word that is an operation's canonical encoding decodes to it. -/
theorem decode_of_canonical_word {v : Variant} {i : Instr} {w : Nat} (hword : encode i = bareTransaction 32 w)
    (hw : i.wf = true) (he : i.existsIn v = true) : decode v (bareTransaction 32 w) = .instr i :=
  hword ▸ decode_encode hw he

/-- Settles O3: each of the eight words is the canonical encoding of the operation beside it. -/
theorem testVectorWordsDecode : Obligations.TestVectorWordsDecode :=
  ⟨decode_of_canonical_word (by decide) rfl rfl, decode_of_canonical_word (by decide) rfl rfl,
    decode_of_canonical_word (by decide) rfl rfl, decode_of_canonical_word (by decide) rfl rfl,
    decode_of_canonical_word (by decide) rfl rfl, decode_of_canonical_word (by decide) rfl rfl,
    decode_of_canonical_word (by decide) rfl rfl, decode_of_canonical_word (by decide) rfl rfl⟩

/-! ### What the decoder can give -/

/-- The operation fits a row of R81's table for selector `sel` in a system of variant `v`. -/
structure Instr.OfRow (v : Variant) (sel : BitVec 8) (i : Instr) : Prop where
  wf : i.wf = true
  existsIn : i.existsIn v = true
  sel : i.sel = sel

theorem Instr.OfRow.of_byVariant {v : Variant} {sel : BitVec 8} {f m i : Instr} (h : byVariant v f m = .instr i)
    (hf : f.OfRow .fixed sel) (hm : m.OfRow .multi sel) : i.OfRow v sel := by
  rcases byVariant_eq_instr.1 h with ⟨rfl, rfl⟩ | ⟨rfl, rfl⟩
  · exact hf
  · exact hm

theorem Instr.OfRow.of_multiOnly {v : Variant} {sel sel' : BitVec 8} {m i : Instr} (h : multiOnly v sel' m = .instr i)
    (hm : m.OfRow .multi sel) : i.OfRow v sel := by
  obtain ⟨rfl, rfl⟩ := multiOnly_eq_instr.1 h
  exact hm

/-- Every address falls in one of the three regions, and M.PEEK's row is that region's. -/
theorem decodeMPeek_ofRow (a : Arg) : (decodeMPeek a).OfRow .multi 0x12#8 := by
  unfold decodeMPeek
  split
  · exact ⟨‹_›, rfl, rfl⟩
  · split
    · exact ⟨‹_›, rfl, rfl⟩
    · exact ⟨by simp [Instr.wf, *], rfl, rfl⟩

theorem decodeMPoke_ofRow (a : Arg) (v : Byte) : (decodeMPoke a v).OfRow .multi 0x13#8 := by
  unfold decodeMPoke
  split
  · exact ⟨‹_›, rfl, rfl⟩
  · split
    · exact ⟨‹_›, rfl, rfl⟩
    · exact ⟨by simp [Instr.wf, *], rfl, rfl⟩

/-- A decoded operation fits a row of the word's selector (R81, R94). -/
theorem decode_ofRow {v : Variant} {t : Transaction} {i : Instr} (h : decode v t = .instr i) :
    i.OfRow v (selOf t.word) := by
  unfold decode at h
  split at h
  case h_1 hsel | h_2 hsel | h_3 hsel | h_4 hsel | h_20 hsel | h_21 hsel =>
    cases h
    exact ⟨rfl, rfl, hsel.symm⟩
  case h_5 hsel =>
    rcases byVariant_eq_instr.1 h with ⟨-, rfl⟩ | ⟨-, rfl⟩
    · exact ⟨rfl, rfl, hsel.symm⟩
    · exact ⟨rfl, rfl, hsel.symm⟩
  case h_8 hsel => exact .of_byVariant h ⟨rfl, rfl, hsel.symm⟩ (hsel ▸ decodeMPeek_ofRow _)
  case h_9 hsel => exact .of_byVariant h ⟨rfl, rfl, hsel.symm⟩ (hsel ▸ decodeMPoke_ofRow _ _)
  case h_18 hsel | h_19 hsel => exact .of_multiOnly h ⟨rfl, rfl, hsel.symm⟩
  case h_22 => cases h
  all_goals
    next hsel => exact .of_byVariant h ⟨rfl, rfl, hsel.symm⟩ ⟨rfl, rfl, hsel.symm⟩

/-- Settles O2: the decoded operation fits its row, and what fits a row survives encoding and decoding (O1). -/
theorem decodedOperationIsWellFormed : Obligations.DecodedOperationIsWellFormed := by
  intro v t i h
  obtain ⟨hw, he, hs⟩ := decode_ofRow h
  exact ⟨hw, he, hs, decode_encode hw he⟩

/-- A selector that no operation of the variant has is rejected. -/
theorem decode_rejected_of_no_operation {v : Variant} {t : Transaction}
    (h : ∀ i : Instr, i.existsIn v = true → i.sel ≠ selOf t.word) : ∃ r, decode v t = .rejected r := by
  cases hd : decode v t with
  | instr i => exact absurd (decode_ofRow hd).sel (h i (decode_ofRow hd).existsIn)
  | rejected r => exact ⟨r, rfl⟩

/-- The selectors of R81's table. -/
def assignedSelectors : List (BitVec 8) :=
  [0x00#8, 0x01#8, 0x02#8, 0x03#8, 0x0F#8, 0x10#8, 0x11#8, 0x12#8, 0x13#8, 0x14#8, 0x15#8, 0x16#8, 0x17#8, 0x18#8, 0x19#8,
    0x1A#8, 0x1B#8, 0x20#8, 0x21#8, 0x22#8, 0x23#8]

theorem Instr.sel_mem_assignedSelectors (i : Instr) : i.sel ∈ assignedSelectors := by
  cases i <;> simp [Instr.sel, assignedSelectors]

/-- A Fixed system has no lock (R40, R92). -/
theorem Instr.sel_ne_lock_of_fixed {i : Instr} (h : i.existsIn .fixed = true) : i.sel ≠ 0x20#8 ∧ i.sel ≠ 0x21#8 := by
  cases i <;> simp [Instr.sel, Instr.existsIn] at h ⊢

end Sys2Proof

namespace Sys2Proof.Machine

/-! ### Operations a system does not have -/

/-- Settles O4: no operation of the system has the selector, so the decoder rejects the word and the step refuses it. -/
theorem unassignedSelectorsAreRefused : Obligations.UnassignedSelectorsAreRefused := by
  intro s t rest hp hsel
  have hnone : ∀ i : Instr, i.existsIn s.variant = true → i.sel ≠ selOf t.word := by
    intro i he hi
    rcases hsel with hun | ⟨hc, hlock⟩
    · exact hun (hi ▸ i.sel_mem_assignedSelectors)
    · rw [State.variant_of_fixed hc] at he
      obtain ⟨hl, hu⟩ := Instr.sel_ne_lock_of_fixed he
      exact hlock.elim (hl ∘ hi.trans) (hu ∘ hi.trans)
  obtain ⟨r, hr⟩ := decode_rejected_of_no_operation hnone
  exact step_of_rejected hp hr

theorem State.cart_of_variant_ne_multi {s : State} (h : (s.variant == .multi) = false) : s.cart = .fixed := by
  cases hc : s.cart with
  | fixed => rfl
  | multi b => simp [State.variant_of_multi hc] at h

theorem State.cart_of_variant_ne_fixed {s : State} (h : (s.variant == .fixed) = false) : ∃ b, s.cart = .multi b := by
  cases hc : s.cart with
  | fixed => simp [State.variant_of_fixed hc] at h
  | multi b => exact ⟨b, rfl⟩

/-- Settles O7, by cases on the operation: every meaning of one variant starts with the variant's guard. -/
theorem otherVariantsOperationsAreRefused : Obligations.OtherVariantsOperationsAreRefused := by
  intro s i h
  cases i with
  | read | write | getpage | setpage | fConstruct | mConstruct | bankchanged | clearbankchanged => cases h
  | fInstall | fReset | fPeek | fPoke | fPatch | fBank | fGetbank | fBankcount | fGetimage | fTag | fSave | fLoad =>
    obtain ⟨b, hc⟩ := State.cart_of_variant_ne_fixed h
    exact onFixed_multi hc _
  | mInstall | mReset | mPeekHotspot | mPeekWindow | mPeekLow | mPokeHotspot | mPokeWindow | mPokeLow | mPatch | mBank
  | mGetbank | mBankcount | mGetimage | mTag | mSave | mLoad | lockbank | unlockbank =>
    exact onMulti_fixed (State.cart_of_variant_ne_multi h) _

/-! ### Ignored fields (R93) -/

/-- An operation issued ahead of the queue of `s` runs in `s`. -/
theorem step_issued_instr {s : State} {t : Transaction} {i : Instr} (hd : decode s.variant t = .instr i) :
    step { s with pending := t :: s.pending } = exec i s :=
  step_of_instr rfl hd

theorem step_issued_rejected {s : State} {t : Transaction} {r : Reject} (hd : decode s.variant t = .rejected r) :
    step { s with pending := t :: s.pending } = .refused .noSuchOperation :=
  step_of_rejected rfl hd

/-- Two transactions issued in one state do the same when the operations they decode to do. -/
theorem step_eq_of_exec_eq {s : State} {t t' : Transaction} {i i' : Instr} (hd : decode s.variant t = .instr i)
    (hd' : decode s.variant t' = .instr i') (he : exec i s = exec i' s) :
    step { s with pending := t :: s.pending } = step { s with pending := t' :: s.pending } := by
  rw [step_issued_instr hd, step_issued_instr hd', he]

/-- Two transactions issued in one state do the same when the decoder tells no difference. -/
theorem step_eq_of_decode_eq {s : State} {t t' : Transaction} (h : decode s.variant t = decode s.variant t') :
    step { s with pending := t :: s.pending } = step { s with pending := t' :: s.pending } := by
  cases hd : decode s.variant t with
  | instr i => exact step_eq_of_exec_eq hd (h ▸ hd) rfl
  | rejected r => rw [step_issued_rejected hd, step_issued_rejected (h ▸ hd)]

section
variable {a a' : Arg} {s : State}

/-- The address mask of R4 keeps exactly what `busAddr` reads. -/
theorem busAddr_eq_of_and (h : a &&& 0x1FFF#16 = a' &&& 0x1FFF#16) : busAddr a = busAddr a' := by
  have hn : a.toNat &&& (2 ^ 13 - 1) = a'.toNat &&& (2 ^ 13 - 1) := congrArg BitVec.toNat h
  rw [Nat.and_two_pow_sub_one_eq_mod, Nat.and_two_pow_sub_one_eq_mod] at hn
  exact BitVec.eq_of_toNat_eq (by rw [busAddr_toNat, busAddr_toNat]; exact hn)

theorem exec_read_congr (h : busAddr a = busAddr a') : exec (.read a) s = exec (.read a') s := by
  simp only [exec, execRead, h]

theorem exec_write_congr (h : busAddr a = busAddr a') (v : Byte) : exec (.write a v) s = exec (.write a' v) s := by
  simp only [exec, execWrite, h]

/-- Whatever the region, M.PEEK runs its one rule (R135). -/
theorem exec_decodeMPeek (a : Arg) (s : State) :
    exec (decodeMPeek a) s = onMulti s fun b => deliver .byte (multiPeek a b s) := by
  unfold decodeMPeek
  split
  · rfl
  · split <;> rfl

/-- Whatever the region, M.POKE runs its one rule (R136). -/
theorem exec_decodeMPoke (a : Arg) (v : Byte) (s : State) :
    exec (decodeMPoke a v) s = onMulti s fun b => deliver .bool (multiPoke a v b s) := by
  unfold decodeMPoke
  split
  · rfl
  · split <;> rfl

theorem exec_decodeMPeek_congr (h : busAddr a = busAddr a') : exec (decodeMPeek a) s = exec (decodeMPeek a') s := by
  simp only [exec_decodeMPeek, multiPeek, h]

theorem exec_decodeMPoke_congr (h : busAddr a = busAddr a') (v : Byte) :
    exec (decodeMPoke a v) s = exec (decodeMPoke a' v) s := by
  simp only [exec_decodeMPoke, multiPoke, h]

theorem exec_fPeek_congr (h : fixedOffset s.store.size a.toNat = fixedOffset s.store.size a'.toNat) :
    exec (.fPeek a) s = exec (.fPeek a') s := by
  simp only [exec, execFPeek, fixedByte, h]

theorem exec_fPatch_congr (h : fixedOffset s.store.size a.toNat = fixedOffset s.store.size a'.toNat) (v : Byte) :
    exec (.fPatch a v) s = exec (.fPatch a' v) s := by
  simp only [exec, execFPatch, h]

theorem exec_mPatch_congr (h : a &&& 0x0FFF#16 = a' &&& 0x0FFF#16) (v : Byte) :
    exec (.mPatch a v) s = exec (.mPatch a' v) s := by
  have hn : a.toNat &&& Config.bankMask = a'.toNat &&& Config.bankMask := congrArg BitVec.toNat h
  simp only [exec, execMPatch, bankOffset, hn]

end

/-- The selectors of R81's table that name neither an address, nor a page, nor a bank, nor a data byte. -/
def operandFreeSelectors : List (BitVec 8) :=
  [0x0F#8, 0x10#8, 0x11#8, 0x16#8, 0x17#8, 0x18#8, 0x19#8, 0x1A#8, 0x1B#8, 0x20#8, 0x21#8, 0x22#8, 0x23#8]

/-- The decoder reads no field but the selector of an operation without operands in the word. -/
theorem decode_operandFree {sel : BitVec 8} (h : sel ∈ operandFreeSelectors) (v : Variant) (x : Beside) (a a' : Arg)
    (d d' : Byte) :
    decode v { word := mkWord sel a d, beside := x } = decode v { word := mkWord sel a' d', beside := x } := by
  simp only [operandFreeSelectors, List.mem_cons, List.not_mem_nil, or_false] at h
  rcases h with rfl | rfl | rfl | rfl | rfl | rfl | rfl | rfl | rfl | rfl | rfl | rfl | rfl <;> simp

/-- Settles O5, clause by clause: the two words decode to operations whose meaning reads no ignored bit. -/
theorem ignoredFieldsDoNotMatter : Obligations.IgnoredFieldsDoNotMatter := by
  intro s x sel a a' d d' h
  rcases h with ⟨rfl | ⟨rfl, hv⟩, ha⟩ | ⟨rfl | ⟨rfl, hv⟩, ha, rfl⟩ | ⟨rfl, hv, ha⟩ | ⟨rfl | rfl, hv, ha, rfl⟩ |
    ⟨rfl, hv, ha, rfl⟩ | ⟨rfl | rfl | ⟨rfl, hv⟩, rfl⟩ | ⟨rfl, hv⟩ | hsel
  · exact step_eq_of_exec_eq (decode_read ..) (decode_read ..) (exec_read_congr (busAddr_eq_of_and ha))
  · exact step_eq_of_exec_eq (by simp [hv]) (by simp [hv]) (exec_decodeMPeek_congr (busAddr_eq_of_and ha))
  · exact step_eq_of_exec_eq (decode_write ..) (decode_write ..) (exec_write_congr (busAddr_eq_of_and ha) d)
  · exact step_eq_of_exec_eq (by simp [hv]) (by simp [hv]) (exec_decodeMPoke_congr (busAddr_eq_of_and ha) d)
  · exact step_eq_of_exec_eq (by simp [hv]) (by simp [hv]) (exec_fPeek_congr ha)
  · exact step_eq_of_exec_eq (i := .fPoke a d) (i' := .fPoke a' d) (by simp [hv]) (by simp [hv]) rfl
  · exact step_eq_of_exec_eq (by simp [hv]) (by simp [hv]) (exec_fPatch_congr ha d)
  · exact step_eq_of_exec_eq (by simp [hv]) (by simp [hv]) (exec_mPatch_congr ha d)
  · exact step_eq_of_decode_eq (by simp)
  · exact step_eq_of_decode_eq (by simp)
  · exact step_eq_of_decode_eq (by simp)
  · exact step_eq_of_exec_eq (i := .fBank a) (i' := .fBank a') (by simp [hv]) (by simp [hv]) rfl
  · exact step_eq_of_decode_eq (decode_operandFree hsel ..)

/-! ### SWITCH (R97) -/

/-- The cartridge answers a hotspot READ of a Multi system (R37, R100). -/
theorem State.Coherent.execRead_hotspot {s : State} {b : Banks} (h : s.Coherent) (hi : s.installed = true)
    (hc : s.cart = .multi b) {a : Arg} (hh : inHotspot (busAddr a) = true) :
    execRead a s = deliver .byte (devPeek .cart (busAddr a) s) :=
  execRead_of_mapped (h.hotspot_entry hi hc hh)

/-- A captured slot of an installed cartridge names an external device (R145). -/
theorem State.Inv.slot_owner {s : State} {b : Banks} (h : s.Inv) (hi : s.installed = true) (hc : s.cart = .multi b)
    (g : Slot) : ∃ k, (b.slot g).owner = .ext k := by
  have hout : s.cart.forwardsOutside := h.forwards hi
  rw [hc] at hout
  cases ho : (b.slot g).owner with
  | cart => exact absurd ho (hout g)
  | ext k => exact ⟨k, rfl⟩

/-- The cartridge's answer to a hotspot access that is forwarded to `EXT(k)`. -/
theorem devPeek_hotspot {s : State} {b : Banks} {a : BusAddr} {k : Nat} (hc : s.cart = .multi b)
    (hi : s.installed = true) (hh : inHotspot a = true) (ho : (b.slot (slotOf a)).owner = .ext k)
    (hr : s.calls.length ∉ s.reentries) :
    devPeek .cart a s = .next (Config.extPeek k (historyOf k s.calls) a,
      (tryBank (hotBank b.bankCount a) b s).2.called k (.peek a)) := by
  rw [devPeek_multi hc, multiPeek_forwarded (k := k) hi (by rwa [busAddr_setWidth]) (by rwa [busAddr_setWidth]) hr,
    busAddr_setWidth]

/-- A forwarded hotspot READ, whole: the switch attempt, then one peek of the captured device (R100, R135, R145). -/
theorem State.Coherent.execRead_forwarded {s : State} {b : Banks} {a : Arg} {k : Nat} (h : s.Coherent)
    (hi : s.installed = true) (hc : s.cart = .multi b) (hh : inHotspot (busAddr a) = true)
    (ho : (b.slot (slotOf (busAddr a))).owner = .ext k) (hr : s.calls.length ∉ s.reentries) :
    execRead a s = .next (((tryBank (hotBank b.bankCount (busAddr a)) b s).2.called k (.peek (busAddr a))).answer
      (.byte (Config.extPeek k (historyOf k s.calls) (busAddr a)))) := by
  rw [h.execRead_hotspot hi hc hh, devPeek_hotspot hc hi hh ho hr, deliver_of_next]

/-- The address of `SWITCH n` survives the reduction to the bus width. -/
theorem busAddr_switch {n : Nat} (h : n < 2048) : (busAddr (BitVec.ofNat 16 (0x0800 + n))).toNat = 0x0800 + n := by
  rw [busAddr_toNat, BitVec.toNat_ofNat]
  omega

theorem inHotspot_switch {n : Nat} (h : n < 2048) : inHotspot (busAddr (BitVec.ofNat 16 (0x0800 + n))) = true := by
  rw [inHotspot_iff, busAddr_switch h]
  omega

/-- The low bits of `0x0800 + n` are `n`, since every bank count of at most 2048 divides 0x0800 (R86). -/
theorem and_switch_address {j n : Nat} (hj : j ≤ 11) (h : n < 2 ^ j) : (0x0800 + n) &&& (2 ^ j - 1) = n := by
  have hdvd : 2 ^ j ∣ 0x0800 := pow_dvd_pow 2 hj
  rw [Nat.and_two_pow_sub_one_eq_mod, Nat.add_mod, Nat.mod_eq_zero_of_dvd hdvd, Nat.zero_add, Nat.mod_mod,
    Nat.mod_eq_of_lt h]

/-- Settles O57: the hotspot page sends the READ to the cartridge, whose switch selects the address's low bits. -/
theorem switchSelectsTheNamedBank : Obligations.SwitchSelectsTheNamedBank := by
  intro s b j n hinv hcoh hc hi hl hr hcount hj hn
  have hn' : n < 2 ^ j := hcount ▸ hn
  have hlt : n < 2048 := hn'.trans_le (Nat.pow_le_pow_right (by decide) hj)
  have hh := inHotspot_switch hlt
  obtain ⟨k, ho⟩ := hinv.slot_owner hi hc (slotOf (busAddr (BitVec.ofNat 16 (0x0800 + n))))
  refine ⟨_, hcoh.execRead_forwarded hi hc hh ho hr, ?_⟩
  rw [State.answer_cart, State.called_cart, switch_unlocked (hinv.bankCount_pos hc) hl, selectBank_cart,
    busAddr_switch hlt, hcount, and_switch_address hj hn']

end Sys2Proof.Machine

/-! PROOFS. The statements of 40_bus_dispatch.md. READ and WRITE hand the access to the owner of the page: an external device,
or the cartridge, whose own peek and poke of the 13-bit address they then are. -/

namespace Sys2Proof.Machine

open Sys2Proof.Claims

/-! ### The page a window address lies in, and its offset there (R104) -/

theorem State.winDesc_direct_of_fixed {s : State} (h : s.cart = .fixed) (p : PageIdx) :
    (s.winDesc p).direct = some (fixedOffset s.store.size (pageBase p)) := by
  rw [State.winDesc_of_fixed h]
  rfl

theorem State.winDesc_direct_of_multi {s : State} {b : Banks} (h : s.cart = .multi b) (p : PageIdx) :
    (s.winDesc p).direct = some (bankOffset b.bank (pageBase p)) := by
  rw [State.winDesc_of_multi h]
  rfl

theorem pageBase_pageOf_busAddr (a : Arg) : pageBase (pageOf (busAddr a)) = a.toNat % 8192 / 64 * 64 := by
  rw [pageBase, pageOf_toNat, busAddr_toNat, Config.pageSize]

theorem and_0x3F (n : Nat) : n &&& 0x3F = n % 64 := Nat.and_two_pow_sub_one_eq_mod n 6

/-- A Fixed store size is a multiple of the page size, so the mask keeps the offset within a page (R57). -/
theorem fixedOffset_add_page {size : Nat} (h : size ∈ fixedSizes) (n : Nat) :
    fixedOffset size (n / 64 * 64) + n % 64 = fixedOffset size n := by
  obtain ⟨k, h6, -, rfl⟩ := fixedSizes_pow h
  obtain ⟨j, rfl⟩ := Nat.exists_eq_add_of_le h6
  rw [fixedOffset_pow, fixedOffset_pow, pow_add, show 2 ^ 6 = 64 from rfl, Nat.mul_comm (n / 64), Nat.mul_mod_mul_left,
    Nat.mod_mul]
  omega

/-- Page base and offset within the page make up the Fixed translation of the address. -/
theorem fixedOffset_pageBase {size : Nat} (h : size ∈ fixedSizes) (a : Arg) :
    fixedOffset size (pageBase (pageOf (busAddr a))) + (a.toNat &&& 0x3F) = fixedOffset size a.toNat := by
  have hlow : a.toNat % 64 = a.toNat % 8192 % 64 := by omega
  rw [pageBase_pageOf_busAddr, and_0x3F, hlow, fixedOffset_add_page h, ← busAddr_toNat, fixedOffset_bus h]

/-- Page base and offset within the page make up the Multi translation of the address. -/
theorem bankOffset_pageBase (bank : Nat) (a : Arg) :
    bankOffset bank (pageBase (pageOf (busAddr a))) + (a.toNat &&& 0x3F) = bank * 4096 + (a.toNat &&& 0x0FFF) := by
  rw [pageBase_pageOf_busAddr, bankOffset_eq, and_0x3F, and_0xFFF]
  omega

/-- A window READ of either variant through the published offset (R104). -/
theorem State.Coherent.execRead_direct {s : State} (hcoh : s.Coherent) (hinv : s.Inv) (hi : s.installed = true) {a : Arg}
    (hw : a.getLsbD 12 = true) :
    ∃ off, (s.winDesc (pageOf (busAddr a))).direct = some off ∧
      execRead a s = .next (s.answer (.byte (s.store.read (off + (a.toNat &&& 0x3F))))) := by
  cases hc : s.cart with
  | fixed =>
    refine ⟨_, State.winDesc_direct_of_fixed hc _, ?_⟩
    rw [fixedOffset_pageBase (hinv.fixedSize hc)]
    exact (fixedWindowAccess s a 0 hinv hcoh hc hi hw).1
  | multi b =>
    refine ⟨_, State.winDesc_direct_of_multi hc _, ?_⟩
    rw [bankOffset_pageBase]
    exact (multiWindowAccess s b a 0 hcoh hc hi hw).1

/-- Settles O23: the entry is the published window descriptor, and its offset with the low six address bits is the variant's
own translation, which the window READ gives (O17, O18). -/
theorem dispatchedReadEqualsDirectRead : Obligations.DispatchedReadEqualsDirectRead := by
  intro s a hinv hcoh hi hw
  obtain ⟨off, hoff, hread⟩ := hcoh.execRead_direct hinv hi hw
  exact ⟨_, off, hcoh.window_entry hi ((inWindow_busAddr a).trans hw), s.winDesc_owner _, hoff, hread⟩

/-! ### A page the cartridge owns (R100, R101) -/

/-- The 13-bit address survives its passage through F.PEEK's 16-bit operand. -/
theorem fixedByte_setWidth (a : BusAddr) (s : State) :
    fixedByte (a.setWidth 16) s = s.store.read (a.toNat &&& (s.store.size - 1)) := by
  rw [fixedByte, fixedOffset, BitVec.toNat_setWidth_of_le (by decide)]

/-- M.PEEK reads no address bit above the bus width (R4, R135). -/
theorem devPeek_busAddr {s : State} {b : Banks} (hc : s.cart = .multi b) (a : Arg) :
    devPeek .cart (busAddr a) s = multiPeek a b s := by
  rw [devPeek_multi hc, multiPeek, multiPeek, busAddr_setWidth]

/-- M.POKE reads no address bit above the bus width (R4, R136). -/
theorem devPoke_busAddr {s : State} {b : Banks} (hc : s.cart = .multi b) (a : Arg) (v : Byte) :
    devPoke .cart (busAddr a) v s = multiPoke a v b s := by
  rw [devPoke_multi hc, multiPoke, multiPoke, busAddr_setWidth]

/-- Each of M.PEEK's three rows runs the one rule (R135). -/
theorem exec_of_mem_mPeekForms {s : State} {b : Banks} {a : Arg} {i : Instr} (hc : s.cart = .multi b)
    (hi : i ∈ mPeekForms a) : exec i s = deliver .byte (multiPeek a b s) := by
  simp only [mPeekForms, List.mem_cons, List.not_mem_nil, or_false] at hi
  rcases hi with rfl | rfl | rfl <;> exact onMulti_multi hc _

/-- Each of M.POKE's three rows runs the one rule (R136). -/
theorem exec_of_mem_mPokeForms {s : State} {b : Banks} {a : Arg} {v : Byte} {i : Instr} (hc : s.cart = .multi b)
    (hi : i ∈ mPokeForms a v) : exec i s = deliver .bool (multiPoke a v b s) := by
  simp only [mPokeForms, List.mem_cons, List.not_mem_nil, or_false] at hi
  rcases hi with rfl | rfl | rfl <;> exact onMulti_multi hc _

theorem multiPeek_not_installed {s : State} {a : Arg} (hi : s.installed = false) (hh : inHotspot (busAddr a) = true)
    (b : Banks) : multiPeek a b s = .refused .notInstalled := by
  simp [multiPeek, hotspotAccess, hh, hi]

theorem multiPoke_not_installed {s : State} {a : Arg} (hi : s.installed = false) (hh : inHotspot (busAddr a) = true)
    (v : Byte) (b : Banks) : multiPoke a v b s = .refused .notInstalled := by
  simp [multiPoke, hotspotAccess, hh, hi]

/-- Settles O58: the page's owner is the cartridge, so READ and WRITE are its peek and poke, by cases on the variant and, for
Multi, on the region. -/
theorem cartridgePageAccessIsItsPeekAndPoke : Obligations.CartridgePageAccessIsItsPeekAndPoke := by
  intro s a v d hentry ho
  have hread : exec (.read a) s = deliver .byte (devPeek .cart (busAddr a) s) := ho ▸ execRead_of_mapped hentry
  have hwrite : exec (.write a v) s = deliver .bool (devPoke .cart (busAddr a) v s) := ho ▸ execWrite_of_mapped hentry v
  constructor
  · intro hc
    rw [devPeek_fixed hc, fixedByte_setWidth] at hread
    rw [devPoke_fixed hc] at hwrite
    exact ⟨hread, hwrite⟩
  · intro b hc
    rw [devPeek_busAddr hc] at hread
    rw [devPoke_busAddr hc] at hwrite
    refine ⟨fun i hi => hread.trans (exec_of_mem_mPeekForms hc hi).symm,
      fun i hi => hwrite.trans (exec_of_mem_mPokeForms hc hi).symm, fun hh => ?_, fun hh hi => ?_⟩
    · rw [multiPeek_outside hh, bankByte_busAddr] at hread
      rw [multiPoke_outside hh] at hwrite
      exact ⟨hread, hwrite⟩
    · rw [multiPeek_not_installed hi hh] at hread
      rw [multiPoke_not_installed hi hh] at hwrite
      exact ⟨hread, hwrite⟩

/-! ### GETPAGE and SETPAGE (R102, R103) -/

theorem execGetpage_of_le {p : Arg} (h : p.toNat ≤ 127) (s : State) :
    execGetpage p s = .next (s.answer (.entry (PageTable.get s.pt (p.setWidth 7)))) := by
  rw [execGetpage, pageArg?_of_le h]

theorem execGetpage_of_gt {p : Arg} (h : 127 < p.toNat) (s : State) : execGetpage p s = .refused .pageIndexRange := by
  rw [execGetpage, pageArg?_of_gt h]

/-- Settles O14, by the two outcomes of the index check. -/
theorem getpageReturnsTheEntry : Obligations.GetpageReturnsTheEntry :=
  fun s _ => ⟨fun h => execGetpage_of_le h s, fun h => execGetpage_of_gt h s⟩

theorem execSetpage_of_le {p : Arg} (h : p.toNat ≤ 127) (d : Desc) (s : State) :
    execSetpage p d s = .next ({ s with pt := PageTable.set s.pt (p.setWidth 7) d }.answer .none) := by
  rw [execSetpage, pageArg?_of_le h]

theorem execSetpage_of_gt {p : Arg} (h : 127 < p.toNat) (d : Desc) (s : State) :
    execSetpage p d s = .refused .pageIndexRange := by
  rw [execSetpage, pageArg?_of_gt h]

/-- Settles O15, by the two outcomes of the index check and what a table read gives after the write. -/
theorem setpageWritesOneEntry : Obligations.SetpageWritesOneEntry := by
  refine fun s p d => ⟨fun h => ⟨_, execSetpage_of_le h d s, ?_, fun q hq => ?_, rfl⟩, fun h => execSetpage_of_gt h d s⟩
  · rw [State.answer_pt, PageTable.get_set, if_pos rfl]
  · rw [State.answer_pt, PageTable.get_set, if_neg hq]

/-! ### A page an external device owns (R183) -/

theorem devPeek_ext (k : Nat) (a : BusAddr) (s : State) : devPeek (.ext k) a s = extPeek k a s := rfl

theorem devPoke_ext (k : Nat) (a : BusAddr) (v : Byte) (s : State) : devPoke (.ext k) a v s = extPoke k a v s := rfl

theorem extPeek_of_reentered {s : State} (h : s.reenteredNext = true) (k : Nat) (a : BusAddr) :
    extPeek k a s = .refused .deviceReentered := if_pos h

theorem extPoke_of_reentered {s : State} (h : s.reenteredNext = true) (k : Nat) (a : BusAddr) (v : Byte) :
    extPoke k a v s = .refused .deviceReentered := if_pos h

/-- Settles O16: the page's owner is the device, so READ and WRITE are its one call, refused exactly when the run says that it
re-enters the block. -/
theorem externalPageAccessCallsTheDevice : Obligations.ExternalPageAccessCallsTheDevice := by
  intro s a v d k hentry ho
  have hread : exec (.read a) s = deliver .byte (devPeek (.ext k) (busAddr a) s) := ho ▸ execRead_of_mapped hentry
  have hwrite : exec (.write a v) s = deliver .bool (devPoke (.ext k) (busAddr a) v s) := ho ▸ execWrite_of_mapped hentry v
  rw [devPeek_ext] at hread
  rw [devPoke_ext] at hwrite
  constructor
  · intro hr
    have hfree := reenteredNext_of_not_mem hr
    rw [extPeek_of_free hfree] at hread
    rw [extPoke_of_free hfree] at hwrite
    exact ⟨hread, hwrite⟩
  · intro hr
    have hre := reenteredNext_of_mem hr
    rw [extPeek_of_reentered hre] at hread
    rw [extPoke_of_reentered hre] at hwrite
    exact ⟨hread, hwrite⟩

end Sys2Proof.Machine

/-! PROOFS. The statements of 41_cart_fixed.md. On a Fixed cartridge every operation of the variant but CONSTRUCT is the body
behind the variant check (`onFixed_fixed`); CONSTRUCT and INSTALL have one refusal each. -/

namespace Sys2Proof.Machine

/-! ### F.CONSTRUCT: the size of the store and its bytes (R110) -/

/-- No smaller power of two is a legal store that holds the copied bytes (R27). -/
theorem fixedStoreSize_least {n k : Nat} (hmin : Config.fixedMin ≤ 2 ^ k) (hcopied : fixedCopied n ≤ 2 ^ k) :
    fixedStoreSize n ≤ 2 ^ k := Nat.max_le.2 ⟨hmin, nextPow2_least hcopied⟩

theorem fixedStoreSize_pow (n : Nat) : ∃ k, fixedStoreSize n = 2 ^ k := by
  obtain ⟨k, -, -, hk⟩ := fixedSizes_pow (fixedStoreSize_mem n)
  exact ⟨k, hk⟩

/-- A store laid down from a byte sequence holds it. -/
theorem Store.getElem?_eq_some_read_ofBytes {l : List Byte} {j : Nat} (h : j < l.length) (size : Nat) :
    l[j]? = some ((Store.ofBytes size l).read j) := by
  rw [Store.read_ofBytes, List.getElem?_eq_getElem h, List.getD_eq_getElem l _ h]

/-- Behind the byte sequence it was laid down from, a store holds the fill byte. -/
theorem Store.read_ofBytes_of_length_le {l : List Byte} {j : Nat} (h : l.length ≤ j) (size : Nat) :
    (Store.ofBytes size l).read j = Config.fill := by
  rw [Store.read_ofBytes, List.getD_eq_default l _ h]

theorem execFConstruct_of_short {image : List Byte} {n : Nat} (h : image.length < fixedCopied n) (s : State) :
    execFConstruct image n s = .refused .badImage := if_pos h

theorem execFConstruct_of_le {image : List Byte} {n : Nat} (h : fixedCopied n ≤ image.length) (s : State) :
    execFConstruct image n s =
      .next (constructed .fixed Config.tagFixed (Store.ofBytes (fixedStoreSize n) (image.take (fixedCopied n))) s) :=
  if_neg (Nat.not_lt.2 h)

/-- Settles O26, by the two outcomes of the length check: the laws of the rounded size, of a store laid down from bytes, and
of what a CONSTRUCT leaves. -/
theorem fixedConstructBuildsTheStore : Obligations.FixedConstructBuildsTheStore := by
  refine fun s image n => ⟨fun h => execFConstruct_of_short h s, fun h => ⟨_, execFConstruct_of_le h s, ?_, ?_, ?_, ?_⟩⟩
  · exact ⟨Nat.le_max_left _ _, fixedCopied_le_size n, fixedStoreSize_pow n, fun _ => fixedStoreSize_least⟩
  · intro j hj
    have hlen : j < (image.take (fixedCopied n)).length := by rw [List.length_take]; exact lt_min hj (hj.trans_le h)
    rw [constructed_store, ← Store.getElem?_eq_some_read_ofBytes hlen]
    exact (List.getElem?_take_of_lt hj).symm
  · intro j hj _
    exact Store.read_ofBytes_of_length_le ((List.length_take_le _ _).trans hj) _
  · exact ⟨rfl, rfl, rfl, rfl, rfl, constructed_calls .., constructed_pending .., constructed_reentries ..,
      fun h0 hi => constructed_first h0 hi _ _ _⟩

/-! ### F.INSTALL (R111, R113) -/

theorem execFInstall_of_installed {s : State} (hc : s.cart = .fixed) (hi : s.installed = true) :
    execFInstall s = .refused .doubleInstall := by
  rw [execFInstall, onFixed_fixed hc, if_pos hi]

theorem execFInstall_of_not_installed {s : State} (hc : s.cart = .fixed) (hi : s.installed = false) :
    execFInstall s = .next ({ s with
      pt := PageTable.publish s.pt isWindowPage (fixedWinDesc s.store.size), installed := true }.answer .none) := by
  rw [execFInstall, onFixed_fixed hc, if_neg (by simp [hi])]

/-- Settles O27, by the two outcomes of the install check and what a table read gives after the window is published. -/
theorem fixedInstallPublishesTheWindow : Obligations.FixedInstallPublishesTheWindow := by
  refine fun s hc => ⟨execFInstall_of_installed hc, fun hi => ⟨_, execFInstall_of_not_installed hc hi, fun p => ?_, rfl⟩⟩
  rw [State.answer_pt, PageTable.get_publish]
  simp only [isWindowPage_iff]
  rfl

/-! ### F.PATCH (R115) -/

/-- Settles O29: the byte is written at `a & mask`, and the canonical form of the cells gives every read after it. -/
theorem fixedPatchWritesOneByte : Obligations.FixedPatchWritesOneByte := by
  refine fun s a v hinv hc => ⟨_, onFixed_fixed hc _, ?_, fun j hj => ?_, rfl, rfl⟩
  · rw [patchAt_store, Store.read_write hinv.canonical]
    exact if_pos rfl
  · rw [patchAt_store, Store.read_write hinv.canonical]
    exact if_neg hj

/-! ### The operations that only answer (R112, R114, R116 to R121, R144) -/

/-- Settles O28: behind the variant check each of the six is its answer. -/
theorem fixedAnswersChangeNothing : Obligations.FixedAnswersChangeNothing := fun _ _ _ _ hc =>
  ⟨onFixed_fixed hc _, onFixed_fixed hc _, onFixed_fixed hc _, onFixed_fixed hc _, onFixed_fixed hc _, onFixed_fixed hc _⟩

/-- Settles O30: behind the variant check F.RESET only raises the flag. -/
theorem fixedResetOnlySetsTheFlag : Obligations.FixedResetOnlySetsTheFlag := fun _ hc => onFixed_fixed hc _

theorem State.Inv.tag_of_fixed {s : State} (h : s.Inv) (hc : s.cart = .fixed) : s.tag = Config.tagFixed := by
  rw [h.tag, State.variant_of_fixed hc, Config.tagOf]

theorem State.Inv.tag_of_multi {s : State} {b : Banks} (h : s.Inv) (hc : s.cart = .multi b) : s.tag = Config.tagMulti := by
  rw [h.tag, State.variant_of_multi hc, Config.tagOf]

/-- Settles O31: the accessors answer the state's tag, which the invariant says is the variant's. -/
theorem tagAccessorsAnswerTheVariantsTag : Obligations.TagAccessorsAnswerTheVariantsTag := by
  refine ⟨Config.tagFixed_ne_tagMulti, fun s hinv hc => ?_, fun s b hinv hc => ?_⟩
  · rw [← hinv.tag_of_fixed hc]
    exact onFixed_fixed hc _
  · rw [← hinv.tag_of_multi hc]
    exact onMulti_multi hc _

end Sys2Proof.Machine

/-! PROOFS. The statements of 42_cart_multibank.md. Three facts carry them: what `SelectBank` leaves, what a forwarded hotspot
access leaves, and that outside the hotspot region the cartridge's own peek and poke change nothing. -/

namespace Sys2Proof.Machine

open Sys2Proof.Claims

/-! ### The bank selector (R132, R133) -/

/-- The descriptor `SelectBank` publishes is R132's, by the formula of 95_test_vectors.md section 2.3. -/
theorem multiWinDesc_eq_windowDesc {p : PageIdx} (h : 64 ≤ p.toNat) (n : Nat) : multiWinDesc n p = windowDesc n p := by
  have hoff : bankOffset n (pageBase p) = n * 4096 + (p.toNat - 64) * 64 := by
    have := p.isLt
    rw [bankOffset_eq, pageBase, Config.pageSize]
    omega
  rw [multiWinDesc, windowDesc, hoff]

theorem get_selectBank (n : Nat) (b : Banks) (s : State) (p : PageIdx) :
    PageTable.get (selectBank n b s).pt p =
      if 64 ≤ p.toNat then .mapped (windowDesc n p) else PageTable.get s.pt p := by
  rw [selectBank_pt, PageTable.get_publish]
  simp only [isWindowPage_iff]
  split
  · rw [multiWinDesc_eq_windowDesc ‹_›]
  · rfl

theorem bankSelected_selectBank (n : Nat) (b : Banks) (s : State) : BankSelected b n s (selectBank n b s) :=
  ⟨selectBank_cart n b s, selectBank_bankChanged n b s, get_selectBank n b s⟩

/-- `SelectBank` touches the bank state, the table and the flag alone. -/
theorem selectBank_answer_frame (n : Nat) (b : Banks) (s : State) (r : Reply) : (selectBank n b s).answer r =
    { s with cart := ((selectBank n b s).answer r).cart, pt := ((selectBank n b s).answer r).pt, bankChanged := true,
             reply := r } := by simp [State.answer, selectBank]

/-- Handing back a result selects no bank. -/
@[simp] theorem bankSelected_answer {b : Banks} {n : Nat} {s t : State} {r : Reply} :
    BankSelected b n s (t.answer r) ↔ BankSelected b n s t := Iff.rfl

/-- A device's call selects no bank. -/
@[simp] theorem bankSelected_called {b : Banks} {n : Nat} {s t : State} {k : Nat} {x : DevAccess} :
    BankSelected b n s (t.called k x) ↔ BankSelected b n s t := Iff.rfl

/-! ### A forwarded hotspot access (R134, R135, R136, R145) -/

/-- What a hotspot access at `a` leaves once device `k` has had the call `x` and the result `r` is handed back. -/
def State.forwarded (s : State) (b : Banks) (a : BusAddr) (k : Nat) (x : DevAccess) (r : Reply) : State :=
  ((tryBank (hotBank b.bankCount a) b s).2.called k x).answer r

section
variable {s : State} {b : Banks} {a : BusAddr} {k : Nat} {x : DevAccess} {r : Reply}

theorem State.forwarded_of_locked (hl : b.bankLocked = true) : s.forwarded b a k x r = (s.called k x).answer r := by
  rw [State.forwarded, switch_locked hl]

/-- A locked one switches nothing (R165). -/
theorem State.forwarded_same_of_locked (hl : b.bankLocked = true) :
    (s.forwarded b a k x r).cart = s.cart ∧ (s.forwarded b a k x r).pt = s.pt ∧
      (s.forwarded b a k x r).bankChanged = s.bankChanged := by
  rw [State.forwarded_of_locked hl]
  exact ⟨rfl, rfl, rfl⟩

theorem State.forwarded_of_unlocked (hb : 1 ≤ b.bankCount) (hl : b.bankLocked = false) :
    s.forwarded b a k x r = ((selectBank (a.toNat &&& (b.bankCount - 1)) b s).called k x).answer r := by
  rw [State.forwarded, switch_unlocked hb hl]

theorem State.bankSelected_forwarded (hb : 1 ≤ b.bankCount) (hl : b.bankLocked = false) :
    BankSelected b (a.toNat &&& (b.bankCount - 1)) s (s.forwarded b a k x r) := by
  rw [State.forwarded_of_unlocked hb hl, bankSelected_answer, bankSelected_called]
  exact bankSelected_selectBank ..

@[simp] theorem State.forwarded_reply : (s.forwarded b a k x r).reply = r := rfl

@[simp] theorem State.forwarded_calls :
    (s.forwarded b a k x r).calls = s.calls ++ [{ dev := k, access := x }] := by simp [State.forwarded]

/-- Whatever the lock, a forwarded access touches the bank state, the table, the flag, the result and the calls alone. -/
theorem State.forwarded_frame : s.forwarded b a k x r =
    { s with cart := (s.forwarded b a k x r).cart, pt := (s.forwarded b a k x r).pt,
             bankChanged := (s.forwarded b a k x r).bankChanged, reply := (s.forwarded b a k x r).reply,
             calls := (s.forwarded b a k x r).calls } := by
  rcases switch_cases (hotBank b.bankCount a) b s with ⟨-, ht⟩ | ⟨-, ht⟩ <;> rw [State.forwarded, ht]
  · rfl
  · simp [State.answer, State.called, selectBank]

/-- The frame of an unlocked one, whose flag is set (R134). -/
theorem State.forwarded_frame_of_unlocked (hb : 1 ≤ b.bankCount) (hl : b.bankLocked = false) : s.forwarded b a k x r =
    { s with cart := (s.forwarded b a k x r).cart, pt := (s.forwarded b a k x r).pt, bankChanged := true,
             reply := (s.forwarded b a k x r).reply, calls := (s.forwarded b a k x r).calls } := by
  obtain ⟨-, hflag, -⟩ := State.bankSelected_forwarded (s := s) (a := a) (k := k) (x := x) (r := r) hb hl
  rw [← hflag]
  exact State.forwarded_frame

end

section
variable {s : State} {b : Banks} {a : Arg} {k : Nat}

/-- A forwarded M.PEEK, with its result handed back (R135, R145). -/
theorem deliver_multiPeek_forwarded (hi : s.installed = true) (hh : inHotspot (busAddr a) = true)
    (ho : (b.slot (slotOf (busAddr a))).owner = .ext k) (hr : s.calls.length ∉ s.reentries) :
    deliver .byte (multiPeek a b s) = .next (s.forwarded b (busAddr a) k (.peek (busAddr a))
      (.byte (Config.extPeek k (historyOf k s.calls) (busAddr a)))) := by
  rw [multiPeek_forwarded hi hh ho hr, deliver_of_next, State.forwarded]

/-- A forwarded M.POKE, with its result handed back (R136, R145). -/
theorem deliver_multiPoke_forwarded (hi : s.installed = true) (hh : inHotspot (busAddr a) = true)
    (ho : (b.slot (slotOf (busAddr a))).owner = .ext k) (hr : s.calls.length ∉ s.reentries) (v : Byte) :
    deliver .bool (multiPoke a v b s) = .next (s.forwarded b (busAddr a) k (.poke (busAddr a) v)
      (.bool (Config.extPoke k (historyOf k s.calls) (busAddr a) v))) := by
  rw [multiPoke_forwarded hi hh ho hr, deliver_of_next, State.forwarded]

end

/-- A forwarded hotspot WRITE, whole: the switch attempt, then one poke of the captured device (R101, R136, R145). -/
theorem State.Coherent.execWrite_forwarded {s : State} {b : Banks} {a : Arg} {k : Nat} (h : s.Coherent)
    (hi : s.installed = true) (hc : s.cart = .multi b) (hh : inHotspot (busAddr a) = true)
    (ho : (b.slot (slotOf (busAddr a))).owner = .ext k) (hr : s.calls.length ∉ s.reentries) (v : Byte) :
    execWrite a v s = .next (s.forwarded b (busAddr a) k (.poke (busAddr a) v)
      (.bool (Config.extPoke k (historyOf k s.calls) (busAddr a) v))) := by
  have howner : hotDesc.owner = .cart := rfl
  rw [execWrite_of_mapped (h.hotspot_entry hi hc hh), howner, devPoke_busAddr hc,
    deliver_multiPoke_forwarded hi hh ho hr]

/-- Settles O19: the hotspot page sends the READ to the cartridge, which forwards it from the switched state. -/
theorem unlockedHotspotReadSwitchesAndForwards : Obligations.UnlockedHotspotReadSwitchesAndForwards := by
  intro s b a k hinv hcoh hc hi hl hh ho hr
  have hb := hinv.bankCount_pos hc
  exact ⟨s.forwarded b (busAddr a) k _ _, hcoh.execRead_forwarded hi hc hh ho hr, State.bankSelected_forwarded hb hl,
    State.forwarded_reply, State.forwarded_calls, State.forwarded_frame_of_unlocked hb hl⟩

/-- Settles O20: as for the READ; the data byte reaches the device alone. -/
theorem unlockedHotspotWriteSwitchesAndForwards : Obligations.UnlockedHotspotWriteSwitchesAndForwards := by
  intro s b a v k hinv hcoh hc hi hl hh ho hr
  have hb := hinv.bankCount_pos hc
  exact ⟨_, hcoh.execWrite_forwarded hi hc hh ho hr v, State.bankSelected_forwarded hb hl,
    State.forwarded_reply, State.forwarded_calls, State.forwarded_frame_of_unlocked hb hl⟩

/-- Settles O39, by the region of the address and, inside the hotspot region, by the install check. -/
theorem multiPeekReadsOrForwards : Obligations.MultiPeekReadsOrForwards := by
  intro s b a hinv hc i hi
  rw [exec_of_mem_mPeekForms hc hi]
  refine ⟨fun hh => ?_, fun hh hn => ?_, fun hh hn hr k ho => ?_⟩
  · rw [multiPeek_outside hh, deliver_of_next, bankByte_busAddr]
    rfl
  · rw [multiPeek_not_installed hn hh, deliver_of_refused]
  · exact ⟨_, deliver_multiPeek_forwarded hn hh ho hr, State.forwarded_same_of_locked,
      State.bankSelected_forwarded (hinv.bankCount_pos hc), State.forwarded_reply, State.forwarded_calls,
      State.forwarded_frame⟩

/-- Settles O40, by the region of the address and, inside the hotspot region, by the install check. -/
theorem multiPokeForwardsOrDoesNothing : Obligations.MultiPokeForwardsOrDoesNothing := by
  intro s b a v hinv hc i hi
  rw [exec_of_mem_mPokeForms hc hi]
  refine ⟨fun hh => ?_, fun hh hn => ?_, fun hh hn hr k ho => ?_⟩
  · rw [multiPoke_outside hh, deliver_of_next]
    rfl
  · rw [multiPoke_not_installed hn hh, deliver_of_refused]
  · exact ⟨_, deliver_multiPoke_forwarded hn hh ho hr v, State.forwarded_same_of_locked,
      State.bankSelected_forwarded (hinv.bankCount_pos hc), State.forwarded_reply, State.forwarded_calls,
      State.forwarded_frame⟩

/-! ### An access outside the hotspot region (R134) -/

/-- The operations that have a bus operand. -/
theorem busOperand_cases {i : Instr} {a : Arg} (h : busOperand i = some a) :
    i = .read a ∨ (∃ v, i = .write a v) ∨ i ∈ mPeekForms a ∨ ∃ v, i ∈ mPokeForms a v := by
  cases i <;> simp_all [busOperand, mPeekForms, mPokeForms]

/-- The peek of an address outside the hotspot region, by the cartridge or by the external device that owns the page. -/
theorem devPeek_outside {o : DeviceId} {a : BusAddr} {s u : State} {x : Byte} (hh : inHotspot a = false)
    (h : devPeek o a s = .next (x, u)) : u = s ∨ ∃ k, o = .ext k ∧ u = s.called k (.peek a) := by
  cases o with
  | ext k =>
    obtain ⟨-, -, hu⟩ := extPeek_next h
    exact .inr ⟨k, rfl, hu⟩
  | cart =>
    cases hc : s.cart with
    | fixed =>
      rw [devPeek_fixed hc] at h
      cases h
      exact .inl rfl
    | multi b =>
      rw [devPeek_multi hc, multiPeek_outside (by rwa [busAddr_setWidth])] at h
      cases h
      exact .inl rfl

/-- The poke of an address outside the hotspot region. -/
theorem devPoke_outside {o : DeviceId} {a : BusAddr} {v : Byte} {s u : State} {x : Bool} (hh : inHotspot a = false)
    (h : devPoke o a v s = .next (x, u)) : u = s ∨ ∃ k, o = .ext k ∧ u = s.called k (.poke a v) := by
  cases o with
  | ext k =>
    obtain ⟨-, -, hu⟩ := extPoke_next h
    exact .inr ⟨k, rfl, hu⟩
  | cart =>
    cases hc : s.cart with
    | fixed =>
      rw [devPoke_fixed hc] at h
      cases h
      exact .inl rfl
    | multi b =>
      rw [devPoke_multi hc, multiPoke_outside (by rwa [busAddr_setWidth])] at h
      cases h
      exact .inl rfl

/-- Everything a READ can do: the page's owner has been asked. -/
theorem execRead_next {a : Arg} {s t : State} (h : execRead a s = .next t) :
    ∃ d x u, PageTable.get s.pt (pageOf (busAddr a)) = .mapped d ∧ devPeek d.owner (busAddr a) s = .next (x, u) ∧
      t = u.answer (.byte x) := by
  cases hentry : PageTable.get s.pt (pageOf (busAddr a)) with
  | unmapped =>
    rw [execRead_of_unmapped hentry] at h
    cases h
  | mapped d =>
    rw [execRead_of_mapped hentry] at h
    obtain ⟨x, u, hu, ht⟩ := deliver_next h
    exact ⟨d, x, u, rfl, hu, ht⟩

/-- Everything a WRITE can do. -/
theorem execWrite_next {a : Arg} {v : Byte} {s t : State} (h : execWrite a v s = .next t) :
    ∃ d x u, PageTable.get s.pt (pageOf (busAddr a)) = .mapped d ∧ devPoke d.owner (busAddr a) v s = .next (x, u) ∧
      t = u.answer (.bool x) := by
  cases hentry : PageTable.get s.pt (pageOf (busAddr a)) with
  | unmapped =>
    rw [execWrite_of_unmapped hentry] at h
    cases h
  | mapped d =>
    rw [execWrite_of_mapped hentry] at h
    obtain ⟨x, u, hu, ht⟩ := deliver_next h
    exact ⟨d, x, u, rfl, hu, ht⟩

/-- Only a Multi cartridge has M.PEEK, in each of its three forms (R94). -/
theorem mPeekForm_next {i : Instr} {a : Arg} {s t : State} (hi : i ∈ mPeekForms a) (h : exec i s = .next t) :
    ∃ b, s.cart = .multi b ∧ deliver .byte (multiPeek a b s) = .next t := by
  simp only [mPeekForms, List.mem_cons, List.not_mem_nil, or_false] at hi
  rcases hi with rfl | rfl | rfl <;> exact onMulti_next h

/-- Only a Multi cartridge has M.POKE, in each of its three forms (R94). -/
theorem mPokeForm_next {i : Instr} {a : Arg} {v : Byte} {s t : State} (hi : i ∈ mPokeForms a v)
    (h : exec i s = .next t) : ∃ b, s.cart = .multi b ∧ deliver .bool (multiPoke a v b s) = .next t := by
  simp only [mPokeForms, List.mem_cons, List.not_mem_nil, or_false] at hi
  rcases hi with rfl | rfl | rfl <;> exact onMulti_next h

/-- Settles O22, by the four kinds of access: READ and WRITE leave the block as it was or call the page's owner, M.PEEK and
M.POKE only answer. -/
theorem accessOutsideHotspotLeavesTheBlock : Obligations.AccessOutsideHotspotLeavesTheBlock := by
  intro s t i a hop hh h
  rcases busOperand_cases hop with rfl | ⟨v, rfl⟩ | hi | ⟨v, hi⟩
  · obtain ⟨d, x, u, hentry, hu, rfl⟩ := execRead_next h
    rcases devPeek_outside hh hu with rfl | ⟨k, ho, rfl⟩
    · exact ⟨rfl, .inl rfl⟩
    · exact ⟨rfl, .inr ⟨d, k, _, hentry, ho, .inl ⟨rfl, rfl⟩, rfl⟩⟩
  · obtain ⟨d, x, u, hentry, hu, rfl⟩ := execWrite_next h
    rcases devPoke_outside hh hu with rfl | ⟨k, ho, rfl⟩
    · exact ⟨rfl, .inl rfl⟩
    · exact ⟨rfl, .inr ⟨d, k, _, hentry, ho, .inr ⟨v, rfl, rfl⟩, rfl⟩⟩
  · obtain ⟨b, -, h⟩ := mPeekForm_next hi h
    rw [multiPeek_outside hh] at h
    rw [← next_inj h]
    exact ⟨rfl, .inl rfl⟩
  · obtain ⟨b, -, h⟩ := mPokeForm_next hi h
    rw [multiPoke_outside hh] at h
    rw [← next_inj h]
    exact ⟨rfl, .inl rfl⟩

/-! ### M.CONSTRUCT (R130) -/

theorem goodMultiImageSize_iff (n : Nat) :
    goodMultiImageSize n = true ↔ n ≠ 0 ∧ n % 4096 = 0 ∧ n / 4096 ≤ 65536 := decide_eq_true_iff

/-- Settles O32, by the two outcomes of the size check: the laws of a store laid down from bytes and of what a CONSTRUCT
leaves. -/
theorem multiConstructHoldsTheImage : Obligations.MultiConstructHoldsTheImage := by
  refine fun s image => ⟨fun hbad => ?_, fun h0 hmul hmax => ?_⟩
  · exact if_neg (by rw [goodMultiImageSize_iff]; omega)
  · refine ⟨_, _, if_pos ((goodMultiImageSize_iff _).2 ⟨h0, hmul, hmax⟩), rfl, rfl, rfl, rfl, rfl, fun j hj => ?_, ?_⟩
    · exact Store.getElem?_eq_some_read_ofBytes hj _
    · exact ⟨rfl, rfl, rfl, rfl, constructed_calls .., constructed_pending .., constructed_reentries ..,
        fun h0 hi => constructed_first h0 hi _ _ _⟩

/-! ### M.INSTALL (R131, R137) -/

theorem captureObstacle_of_unmapped {t : PageTable} {h : Slot} (hu : PageTable.get t (hotspotPage h) = .unmapped) :
    captureObstacle t h = some .hotspotUnmapped := by simp [captureObstacle, hu]

theorem captureObstacle_of_cart {t : PageTable} {h : Slot} {d : Desc}
    (hd : PageTable.get t (hotspotPage h) = .mapped d) (ho : d.owner = .cart) :
    captureObstacle t h = some .selfCapture := by simp [captureObstacle, hd, ho]

theorem captureObstacle_of_outside {t : PageTable} {h : Slot} {d : Desc}
    (hd : PageTable.get t (hotspotPage h) = .mapped d) (ho : d.owner ≠ .cart) :
    captureObstacle t h = none := by simp [captureObstacle, hd, ho]

/-- The check goes slot by slot and ends at the first obstacle. -/
theorem installObstacle_of_first {t : PageTable} {h : Slot} {r : Refusal}
    (hbefore : ∀ g : Slot, g.toNat < h.toNat → captureObstacle t g = none) (hr : captureObstacle t h = some r) :
    installObstacle t = some r := by
  obtain ⟨before, after, hsplit, hlt⟩ := allSlots_split h
  have hnone : before.findSome? (captureObstacle t) = none :=
    List.findSome?_eq_none_iff.2 fun g hg => hbefore g (hlt g hg)
  rw [installObstacle, hsplit, List.findSome?_append, hnone, Option.none_or, List.findSome?_cons_of_isSome (by simp [hr])]
  exact hr

theorem execMInstall_of_installed {s : State} {b : Banks} (hc : s.cart = .multi b) (hi : s.installed = true) :
    execMInstall s = .refused .doubleInstall := by
  rw [execMInstall, onMulti_multi hc, if_pos hi]

theorem execMInstall_of_obstacle {s : State} {b : Banks} {r : Refusal} (hc : s.cart = .multi b)
    (hi : s.installed = false) (ho : installObstacle s.pt = some r) : execMInstall s = .refused r := by
  simp [execMInstall, hc, hi, ho]

/-- M.INSTALL's state before it selects the startup bank: `HotDesc` in pages 32 .. 63, and installed (R131, R137). -/
def State.hotspotsTaken (s : State) : State :=
  { s with pt := PageTable.publish s.pt isHotspotPage (fun _ => hotDesc), installed := true }

theorem execMInstall_of_clear {s : State} {b : Banks} (hc : s.cart = .multi b) (hi : s.installed = false)
    (ho : installObstacle s.pt = none) :
    execMInstall s =
      .next ((selectBank b.startBank { b with captured := captureAll s.pt } s.hotspotsTaken).answer .none) := by
  simp [execMInstall, hc, hi, ho, State.hotspotsTaken]

theorem State.get_hotspotsTaken {s : State} {p : PageIdx} (h : ¬ 64 ≤ p.toNat) :
    PageTable.get s.hotspotsTaken.pt p = if 32 ≤ p.toNat then .mapped hotDesc else PageTable.get s.pt p := by
  have hpage : isHotspotPage p = true ↔ 32 ≤ p.toNat := by rw [isHotspotPage_iff]; omega
  rw [State.hotspotsTaken, PageTable.get_publish]
  simp only [hpage]

/-- Settles O34: the install check, the slot check that ends at the first obstacle, and otherwise the captures, the hotspot
pages and the window of the startup bank. -/
theorem multiInstallCapturesAndTakesOver : Obligations.MultiInstallCapturesAndTakesOver := by
  intro s b hc
  refine ⟨execMInstall_of_installed hc, fun hi d hd => ?_, fun hi h hbefore => ?_⟩
  · have hclear : installObstacle s.pt = none := (installObstacle_eq_none_iff _).2 fun h => ⟨d h, hd h⟩
    refine ⟨_, _, execMInstall_of_clear hc hi hclear, rfl, fun h => ?_, rfl, rfl, rfl, rfl, fun p => ?_, ?_⟩
    · obtain ⟨hentry, -⟩ := hd h
      rw [Banks.slot_captureAll, hentry, descOr]
    · rw [State.answer_pt, get_selectBank]
      split
      · rfl
      · exact State.get_hotspotsTaken ‹_›
    · simp [State.answer, selectBank, State.hotspotsTaken]
  · have hnone : ∀ g : Slot, g.toNat < h.toNat → captureObstacle s.pt g = none := by
      intro g hg
      obtain ⟨d, hd, ho⟩ := hbefore g hg
      exact captureObstacle_of_outside hd ho
    constructor
    · intro hu
      exact execMInstall_of_obstacle hc hi (installObstacle_of_first hnone (captureObstacle_of_unmapped hu))
    · intro d hd ho
      exact execMInstall_of_obstacle hc hi (installObstacle_of_first hnone (captureObstacle_of_cart hd ho))

/-! ### M.BANK and M.RESET (R138, R140) -/

theorem execMBank_not_installed {s : State} {b : Banks} (hc : s.cart = .multi b) (hi : s.installed = false) (n : Arg) :
    execMBank n s = .refused .notInstalled := by
  rw [execMBank, onMulti_multi hc, if_neg (by simp [hi])]

theorem execMBank_of_locked {s : State} {b : Banks} (hc : s.cart = .multi b) (hi : s.installed = true)
    (hl : b.bankLocked = true) (n : Arg) : execMBank n s = .next (s.answer (.bool false)) := by
  rw [execMBank, onMulti_multi hc, if_pos hi, tryBank, if_pos hl, deliver_of_next]

theorem execMBank_of_unlocked {s : State} {b : Banks} (hc : s.cart = .multi b) (hi : s.installed = true)
    (hl : b.bankLocked = false) (n : Arg) :
    execMBank n s = .next ((selectBank (n.toNat % b.bankCount) b s).answer (.bool true)) := by
  rw [execMBank, onMulti_multi hc, if_pos hi, tryBank, if_neg (by simp [hl]), deliver_of_next]

/-- Settles O35, by the install check and the lock. -/
theorem multiBankSelectsUnlessLocked : Obligations.MultiBankSelectsUnlessLocked := by
  refine fun s b n hc => ⟨fun hi => execMBank_not_installed hc hi n, fun hi hl => execMBank_of_locked hc hi hl n,
    fun hi hl => ⟨_, execMBank_of_unlocked hc hi hl n, ?_, selectBank_answer_frame ..⟩⟩
  rw [bankSelected_answer]
  exact bankSelected_selectBank ..

theorem execMReset_not_installed {s : State} {b : Banks} (hc : s.cart = .multi b) (hi : s.installed = false) :
    execMReset s = .refused .notInstalled := by
  rw [execMReset, onMulti_multi hc, if_neg (by simp [hi])]

theorem execMReset_of_installed {s : State} {b : Banks} (hc : s.cart = .multi b) (hi : s.installed = true) :
    execMReset s = .next ((selectBank b.startBank b s).answer .none) := by
  rw [execMReset, onMulti_multi hc, if_pos hi]

/-- Settles O37, by the install check. -/
theorem multiResetRestoresTheStartupBank : Obligations.MultiResetRestoresTheStartupBank := by
  refine fun s b hc => ⟨execMReset_not_installed hc,
    fun hi => ⟨_, execMReset_of_installed hc hi, ?_, selectBank_answer_frame ..⟩⟩
  rw [bankSelected_answer]
  exact bankSelected_selectBank ..

/-! ### M.PATCH (R139) and the answers (R141 to R143) -/

/-- Settles O36: the byte is written at its bank offset, and the canonical form of the cells gives every read after it. -/
theorem multiPatchWritesOneByteOfTheBank : Obligations.MultiPatchWritesOneByteOfTheBank := by
  refine fun s b a v hinv hc => ⟨_, onMulti_multi hc _, ?_, fun j hj => ?_, rfl, rfl⟩
  · rw [patchAt_store, Store.read_write hinv.canonical]
    exact if_pos rfl
  · rw [patchAt_store, Store.read_write hinv.canonical]
    exact if_neg hj

/-- Settles O38: behind the variant check each of the three is its answer. -/
theorem multiAnswersChangeNothing : Obligations.MultiAnswersChangeNothing := fun _ _ hc =>
  ⟨onMulti_multi hc _, onMulti_multi hc _, onMulti_multi hc _⟩

/-! ### A patch seen through another bank (R139, X9) -/

/-- An M.BANK that answers `true` has selected the reduced bank. -/
theorem execMBank_true {s u : State} {b : Banks} {n : Arg} (hc : s.cart = .multi b) (h : execMBank n s = .next u)
    (hr : u.reply = .bool true) : u = (selectBank (n.toNat % b.bankCount) b s).answer (.bool true) := by
  cases hi : s.installed with
  | false =>
    rw [execMBank_not_installed hc hi] at h
    cases h
  | true =>
    cases hl : b.bankLocked with
    | false =>
      rw [execMBank_of_unlocked hc hi hl] at h
      exact (next_inj h).symm
    | true =>
      rw [execMBank_of_locked hc hi hl] at h
      rw [← next_inj h] at hr
      cases hr

/-- Two Multi translations meet exactly when bank and in-bank offset agree (R58). -/
theorem bankOffset_inj {p q : Nat} {a a' : Arg} :
    bankOffset p a'.toNat = bankOffset q a.toNat ↔ p = q ∧ a &&& 0x0FFF#16 = a' &&& 0x0FFF#16 := by
  have hmask : (0x0FFF#16).toNat = 0x0FFF := rfl
  rw [bankOffset_eq, bankOffset_eq, ← BitVec.toNat_inj, BitVec.toNat_and, BitVec.toNat_and, hmask, and_0xFFF, and_0xFFF]
  omega

/-- Settles O41: the peek reads the patched store at the selected bank's offset, which is the patched one exactly when bank
and in-bank offset agree. -/
theorem patchIsSeenOnlyInItsBank : Obligations.PatchIsSeenOnlyInItsBank := by
  intro s t u w b a a' n v hinv hc hpatch hbank hr hh hpeek
  have ht : t = patchAt (bankOffset b.bank a.toNat) v s := (next_inj ((onMulti_multi hc _).symm.trans hpatch)).symm
  have hct : t.cart = .multi b := by rw [ht, patchAt_cart, hc]
  have hu := execMBank_true hct hbank hr
  obtain ⟨c, hcu, hpeek⟩ := onMulti_next hpeek
  have hcbank : c.bank = n.toNat % b.bankCount := by
    rw [hu, State.answer_cart, selectBank_cart] at hcu
    cases hcu
    rfl
  have hstore : u.store = s.store.write (bankOffset b.bank a.toNat) v := by
    rw [hu, State.answer_store, selectBank_store, ht, patchAt_store]
  rw [multiPeek_outside hh, deliver_of_next] at hpeek
  rw [← next_inj hpeek, State.answer_reply, bankByte_busAddr, hstore, hcbank, Store.read_write hinv.canonical]
  exact congrArg Reply.byte (if_congr bankOffset_inj rfl rfl)

end Sys2Proof.Machine

/-! PROOFS. The statements of 43_persistence.md. SAVE and LOAD are read off the stream: `streamPut_of_succeeds` and
`streamPut_of_fails` say what one put leaves, `Stream.afterGet` what one get leaves, and one equation per outcome says what each
operation then does. -/

namespace Sys2Proof

/-! ### What a get leaves (R150, U4) -/

/-- The stream after one get that leaves the items `left` unread. -/
def Stream.afterGet (st : Stream) (left : List StreamItem) : Stream :=
  { st with items := left, gets := st.gets.drop 1 }

theorem Stream.afterGet_gets_head (st : Stream) (left : List StreamItem) :
    (st.afterGet left).gets[0]? = st.gets[1]? := List.getElem?_drop

theorem Stream.afterGet_afterGet (st : Stream) (left left' : List StreamItem) :
    (st.afterGet left).afterGet left' = { st with items := left', gets := st.gets.drop 2 } := by
  simp [Stream.afterGet]

theorem Stream.afterGet_of_reference {st : Stream} (h : st.gets = []) (left : List StreamItem) :
    st.afterGet left = { st with items := left } := by
  simp [Stream.afterGet, h]

theorem GetTurn.serves_or_signals (g : Option GetTurn) : g ∈ [none, some .serves] ∨ ∃ r, g = some (.signals r) := by
  rcases g with - | - | r
  · exact .inl (by simp)
  · exact .inl (by simp)
  · exact .inr ⟨r, rfl⟩

end Sys2Proof

namespace Sys2Proof.Machine

open Sys2Proof.Claims

section
variable {st : Stream} {x : String} {n : BitVec 16} {rest : List StreamItem} {r : Bool}

/-! ### The first get, of a string -/

theorem streamGetString_serves (h : st.items = .str x :: rest) (hg : st.gets[0]? ∈ [none, some .serves]) :
    streamGetString st = (some x, st.afterGet rest) := streamGet_serves itemString h rfl hg

theorem streamGetString_signals (h : st.items = .str x :: rest) (hg : st.gets[0]? = some (.signals r)) :
    streamGetString st = (none, st.afterGet (if r then rest else .str x :: rest)) :=
  streamGet_signals itemString h rfl hg

theorem streamGetString_of_short (h : st.items = .short n :: rest) :
    streamGetString st = (none, st.afterGet rest) := streamGet_otherKind itemString h rfl

theorem streamGetString_exhausted (h : st.items = []) :
    streamGetString st = (none, { st with gets := st.gets.drop 1 }) := streamGet_exhausted itemString h

/-- A get of a string that stands first returns it or signals; on a reference stream it is gone either way. -/
theorem streamGetString_of_string (h : st.items = .str x :: rest) :
    ∃ st', (streamGetString st = (some x, st') ∨ streamGetString st = (none, st')) ∧
      (st.gets = [] → st' = { st with items := rest }) := by
  rcases GetTurn.serves_or_signals st.gets[0]? with hg | ⟨r, hg⟩
  · exact ⟨_, .inl (streamGetString_serves h hg), fun h0 => Stream.afterGet_of_reference h0 rest⟩
  · exact ⟨_, .inr (streamGetString_signals h hg), fun h0 => by simp [h0] at hg⟩

/-! ### The second get, of a short -/

theorem streamGetShort_second_serves (hg : st.gets[1]? ∈ [none, some .serves]) :
    streamGetShort (st.afterGet (.short n :: rest)) = (some n, { st with items := rest, gets := st.gets.drop 2 }) := by
  rw [← st.afterGet_gets_head (.short n :: rest)] at hg
  rw [← st.afterGet_afterGet (.short n :: rest)]
  exact streamGet_serves itemShort rfl rfl hg

theorem streamGetShort_second_signals (hg : st.gets[1]? = some (.signals r)) :
    streamGetShort (st.afterGet (.short n :: rest)) =
      (none, { st with items := if r then rest else .short n :: rest, gets := st.gets.drop 2 }) := by
  rw [← st.afterGet_gets_head (.short n :: rest)] at hg
  rw [← st.afterGet_afterGet (.short n :: rest)]
  exact streamGet_signals itemShort rfl rfl hg

theorem streamGetShort_second_of_string :
    streamGetShort (st.afterGet (.str x :: rest)) = (none, { st with items := rest, gets := st.gets.drop 2 }) := by
  rw [← st.afterGet_afterGet (.str x :: rest)]
  exact streamGet_otherKind itemShort rfl rfl

theorem streamGetShort_second_exhausted :
    streamGetShort (st.afterGet []) = (none, { st with items := [], gets := st.gets.drop 2 }) := by
  rw [← st.afterGet_afterGet []]
  exact streamGet_exhausted itemShort rfl

end

/-! ### What a put leaves (R150) -/

section
variable {item : StreamItem} {items : List StreamItem} {f : List Bool} {g : List GetTurn}

theorem streamPut_of_succeeds (hf : f.headD false = false) :
    streamPut item { items := items, putFails := f, gets := g } =
      (true, { items := items ++ [item], putFails := f.tail, gets := g }) := by
  rcases f with - | ⟨fails, later⟩
  · rfl
  · obtain rfl : fails = false := hf
    rfl

theorem streamPut_of_fails :
    streamPut item { items := items, putFails := true :: f, gets := g } =
      (false, { items := items, putFails := f, gets := g }) := rfl

end

/-! ### SAVE and LOAD, one equation per outcome (R153 to R156) -/

section
variable {s : State} {b : Banks} {st st' st'' : Stream}

theorem execFSave_of_put (hc : s.cart = .fixed) (h : streamPut (.str s.tag) st = (true, st')) :
    execFSave st s = .next (s.answer (.streamed true st')) := by simp [execFSave, hc, h]

theorem execFSave_of_failed (hc : s.cart = .fixed) (h : streamPut (.str s.tag) st = (false, st')) :
    execFSave st s = .next (streamFailed .save st' s) := by simp [execFSave, hc, h]

theorem execMSave_of_puts (hc : s.cart = .multi b) (h : streamPut (.str s.tag) st = (true, st'))
    (h' : streamPut (.short (BitVec.ofNat 16 b.bank)) st' = (true, st'')) :
    execMSave st s = .next (s.answer (.streamed true st'')) := by simp [execMSave, hc, h, h']

theorem execMSave_of_tag_failed (hc : s.cart = .multi b) (h : streamPut (.str s.tag) st = (false, st')) :
    execMSave st s = .next (streamFailed .save st' s) := by simp [execMSave, hc, h]

theorem execMSave_of_bank_failed (hc : s.cart = .multi b) (h : streamPut (.str s.tag) st = (true, st'))
    (h' : streamPut (.short (BitVec.ofNat 16 b.bank)) st' = (false, st'')) :
    execMSave st s = .next (streamFailed .save st'' s) := by simp [execMSave, hc, h, h']

theorem execFLoad_of_string {x : String} (hc : s.cart = .fixed) (h : streamGetString st = (some x, st')) :
    execFLoad st s = .next (s.answer (.streamed (decide (x = s.tag)) st')) := by simp [execFLoad, hc, h]

theorem execFLoad_of_failed (hc : s.cart = .fixed) (h : streamGetString st = (none, st')) :
    execFLoad st s = .next (streamFailed .load st' s) := by simp [execFLoad, hc, h]

theorem execMLoad_not_installed (hc : s.cart = .multi b) (hi : s.installed = false) :
    execMLoad st s = .refused .notInstalled := by simp [execMLoad, hc, hi]

theorem execMLoad_of_tag_failed (hc : s.cart = .multi b) (hi : s.installed = true)
    (h : streamGetString st = (none, st')) : execMLoad st s = .next (streamFailed .load st' s) := by
  simp [execMLoad, hc, hi, h]

theorem execMLoad_of_otherTag {x : String} (hc : s.cart = .multi b) (hi : s.installed = true)
    (h : streamGetString st = (some x, st')) (hx : x ≠ s.tag) :
    execMLoad st s = .next (s.answer (.streamed false st')) := by
  simp [execMLoad, hc, hi, h, hx]

theorem execMLoad_of_bank_failed (hc : s.cart = .multi b) (hi : s.installed = true)
    (h : streamGetString st = (some s.tag, st')) (h' : streamGetShort st' = (none, st'')) :
    execMLoad st s = .next (streamFailed .load st'' s) := by
  simp [execMLoad, hc, hi, h, h']

theorem execMLoad_of_bank {n : BitVec 16} (hc : s.cart = .multi b) (hi : s.installed = true)
    (h : streamGetString st = (some s.tag, st')) (h' : streamGetShort st' = (some n, st'')) :
    execMLoad st s = .next ((selectBank (n.toNat % b.bankCount) b s).answer (.streamed true st'')) := by
  simp [execMLoad, hc, hi, h, h']

end

/-! ### SAVE (R153, R155) -/

/-- Settles O42, by the outcome of the put. -/
theorem fixedSaveWritesTheTag : Obligations.FixedSaveWritesTheTag := by
  intro s items later g hc
  refine ⟨fun f hf => ?_, execFSave_of_failed hc streamPut_of_fails⟩
  have hhead : f.headD false = false := by
    simp only [List.mem_cons, List.not_mem_nil, or_false] at hf
    rcases hf with rfl | rfl <;> rfl
  exact execFSave_of_put hc (streamPut_of_succeeds hhead)

/-- The active bank is one of the cartridge's (R29), which has at most 65536 (R11). -/
theorem State.Inv.bank_bounds {s : State} {b : Banks} (h : s.Inv) (hc : s.cart = .multi b) :
    b.bank < b.bankCount ∧ b.bankCount ≤ 65536 := by
  have hshape := h.shape
  rw [hc] at hshape
  obtain ⟨-, hmax, -, hlt⟩ := hshape
  exact ⟨hlt, hmax⟩

/-- The 16-bit item holds the active bank whole (R155). -/
theorem State.Inv.toNat_savedBank {s : State} {b : Banks} (h : s.Inv) (hc : s.cart = .multi b) :
    (BitVec.ofNat 16 b.bank).toNat = b.bank := by
  obtain ⟨hlt, hmax⟩ := h.bank_bounds hc
  rw [BitVec.toNat_ofNat, Nat.mod_eq_of_lt (hlt.trans_le hmax)]

/-- Both puts of M.SAVE succeed (R155). -/
theorem execMSave_of_succeeds {s : State} {b : Banks} {items : List StreamItem} {f : List Bool} {g : List GetTurn}
    (hc : s.cart = .multi b) (h : f.headD false = false) (h' : f.tail.headD false = false) :
    execMSave { items := items, putFails := f, gets := g } s =
      .next (s.answer (.streamed true { items := items ++ [.str s.tag, .short (BitVec.ofNat 16 b.bank)],
                                        putFails := f.drop 2, gets := g })) := by
  rw [execMSave_of_puts hc (streamPut_of_succeeds h) (streamPut_of_succeeds h'), List.append_assoc, ← List.drop_one,
    ← List.drop_one, List.drop_drop]
  rfl

/-- Settles O44, by the outcomes of the two puts; the invariant keeps the bank within 16 bits. -/
theorem multiSaveWritesTagAndBank : Obligations.MultiSaveWritesTagAndBank := by
  intro s b items later g hinv hc
  refine ⟨⟨BitVec.ofNat 16 b.bank, hinv.toNat_savedBank hc, fun f hf => ?_⟩, ?_, ?_⟩
  · obtain ⟨htag, hbank⟩ : f.headD false = false ∧ f.tail.headD false = false := by
      simp only [List.mem_cons, List.not_mem_nil, or_false] at hf
      rcases hf with rfl | rfl | rfl <;> exact ⟨rfl, rfl⟩
    exact execMSave_of_succeeds hc htag hbank
  · exact execMSave_of_tag_failed hc streamPut_of_fails
  · exact execMSave_of_bank_failed hc (streamPut_of_succeeds (f := false :: true :: later) rfl) streamPut_of_fails

/-! ### LOAD (R154, R156) -/

/-- Settles O43, by the outcome of the get. -/
theorem fixedLoadComparesTheTag : Obligations.FixedLoadComparesTheTag := by
  intro s st hc
  refine ⟨fun x rest h => ⟨fun hg => ?_, fun r hg => ?_⟩, fun n rest h => ?_, fun h => ?_⟩
  · exact execFLoad_of_string hc (streamGetString_serves h hg)
  · exact execFLoad_of_failed hc (streamGetString_signals h hg)
  · exact execFLoad_of_failed hc (streamGetString_of_short h)
  · exact execFLoad_of_failed hc (streamGetString_exhausted h)

/-- Settles O45, by the outcomes of the two gets and the comparison between them (R178). -/
theorem multiLoadRestoresTheBank : Obligations.MultiLoadRestoresTheBank := by
  intro s b st hc
  refine ⟨execMLoad_not_installed hc, fun hi => ⟨fun n rest h hg hg' => ?_, fun x rest h hx hg => ?_, fun h => ?_,
    fun n rest h => ?_, fun x rest r h hg => ?_, fun h hg => ?_, fun x rest h hg => ?_, fun n rest r h hg hg' => ?_⟩⟩
  · exact ⟨_, execMLoad_of_bank hc hi (streamGetString_serves h hg) (streamGetShort_second_serves hg'),
      bankSelected_answer.2 (bankSelected_selectBank ..), selectBank_answer_frame ..⟩
  · exact execMLoad_of_otherTag hc hi (streamGetString_serves h hg) hx
  · exact execMLoad_of_tag_failed hc hi (streamGetString_exhausted h)
  · exact execMLoad_of_tag_failed hc hi (streamGetString_of_short h)
  · exact execMLoad_of_tag_failed hc hi (streamGetString_signals h hg)
  · exact execMLoad_of_bank_failed hc hi (streamGetString_serves h hg) streamGetShort_second_exhausted
  · exact execMLoad_of_bank_failed hc hi (streamGetString_serves h hg) streamGetShort_second_of_string
  · exact execMLoad_of_bank_failed hc hi (streamGetString_serves h hg) (streamGetShort_second_signals hg')

/-! ### A save loaded again (R158) -/

/-- A non-hotspot M.PEEK sees the store and the active bank alone (R135). -/
theorem exec_mPeekForm_outside {s : State} {b : Banks} {a : Arg} {i : Instr} (hc : s.cart = .multi b)
    (hh : inHotspot (busAddr a) = false) (hi : i ∈ mPeekForms a) :
    exec i s = .next (s.answer (.byte (s.store.read (b.bank * 4096 + (a.toNat &&& 0x0FFF))))) := by
  rw [exec_of_mem_mPeekForms hc hi, multiPeek_outside hh, deliver_of_next, bankByte_busAddr]

/-- The stream of a Multi save selects the saved bank in a cartridge of the same tag and bank count. -/
theorem execMLoad_of_saved {y : State} {c : Banks} {n : BitVec 16} (hc : y.cart = .multi c) (hi : y.installed = true)
    (hn : n.toNat < c.bankCount) :
    ∃ y', execMLoad { items := [.str y.tag, .short n], putFails := [], gets := [] } y = .next y' ∧
      y'.reply = .streamed true { items := [], putFails := [], gets := [] } ∧
      y'.cart = .multi { c with bank := n.toNat } ∧ y'.store = y.store := by
  refine ⟨_, execMLoad_of_bank hc hi (streamGetString_serves rfl (by simp)) (streamGetShort_second_serves (by simp)), ?_⟩
  simp [Nat.mod_eq_of_lt hn]

/-- Another tag makes F.LOAD answer `false`, whether its get is served or signals (R154). -/
theorem execFLoad_false_of_otherTag {y : State} {st : Stream} {x : String} {rest : List StreamItem}
    (h : st.items = .str x :: rest) (hx : x ≠ y.tag) (hc : y.cart = .fixed) :
    ∃ t st', execFLoad st y = .next t ∧ t.reply = .streamed false st' ∧
      (st.gets = [] → st' = { st with items := rest }) := by
  obtain ⟨st', hget | hget, href⟩ := streamGetString_of_string h
  · refine ⟨_, st', execFLoad_of_string hc hget, ?_, href⟩
    rw [State.answer_reply, decide_eq_false hx]
  · exact ⟨_, st', execFLoad_of_failed hc hget, rfl, href⟩

/-- Another tag makes M.LOAD answer `false`, whether its get is served or signals (R156). -/
theorem execMLoad_false_of_otherTag {y : State} {b : Banks} {st : Stream} {x : String} {rest : List StreamItem}
    (h : st.items = .str x :: rest) (hx : x ≠ y.tag) (hc : y.cart = .multi b) (hi : y.installed = true) :
    ∃ t st', execMLoad st y = .next t ∧ t.reply = .streamed false st' ∧
      (st.gets = [] → st' = { st with items := rest }) := by
  obtain ⟨st', hget | hget, href⟩ := streamGetString_of_string h
  · exact ⟨_, st', execMLoad_of_otherTag hc hi hget hx, rfl, href⟩
  · exact ⟨_, st', execMLoad_of_tag_failed hc hi hget, rfl, href⟩

/-- Settles O46: the invariant makes the two tags equal and the saved bank an index of the loading cartridge, and a peek sees
only the store and the bank; another tag fails the comparison, or the get before it has signalled. -/
theorem saveThenLoadRoundTrips : Obligations.SaveThenLoadRoundTrips := by
  refine ⟨fun x y x' b c st hx hy hb hc hi hcount hsave hst => ?_, fun x y x' st hx hy hb hc hsave hst => ?_,
    fun y st x rest h hne => ⟨execFLoad_false_of_otherTag h hne, fun b => execMLoad_false_of_otherTag h hne⟩⟩
  · obtain ⟨⟨n, hn, hsaved⟩, -, -⟩ := multiSaveWritesTagAndBank x b [] [] [] hx hb
    rw [hsaved [] (by simp)] at hsave
    rw [← next_inj hsave, hx.tag_of_multi hb, ← hy.tag_of_multi hc] at hst
    cases hst
    have hlt : n.toNat < c.bankCount := hn ▸ hcount ▸ (hx.bank_bounds hb).1
    obtain ⟨y', hload, hreply, hcart, hkept⟩ := execMLoad_of_saved hc hi hlt
    refine ⟨y', _, hload, hreply, hcart, hn, hkept, fun hstore a hh i hform => ?_⟩
    refine ⟨_, _, exec_mPeekForm_outside hb hh hform, exec_mPeekForm_outside hcart hh hform, ?_⟩
    rw [State.answer_reply, State.answer_reply, hkept, hstore, hn]
  · rw [(fixedSaveWritesTheTag x [] [] [] hb).1 [] (by simp)] at hsave
    rw [← next_inj hsave, hx.tag_of_fixed hb, ← hy.tag_of_fixed hc] at hst
    cases hst
    have hload := execFLoad_of_string hc (streamGetString_serves
      (st := { items := [.str y.tag], putFails := [], gets := [] }) rfl (by simp))
    rwa [decide_eq_true rfl] at hload

end Sys2Proof.Machine

/-! PROOFS. The statements of 44_shared_controls.md. Under the lock a hotspot access is `State.forwarded` without its switch;
the controls are their bodies, those of the lock behind the variant check. -/

namespace Sys2Proof.Machine

open Sys2Proof.Claims

/-! ### A hotspot access under the lock (R165) -/

/-- All that a locked hotspot access leaves is the device's call and its result. -/
theorem State.forwarded_eq_of_locked {s : State} {b : Banks} (hl : b.bankLocked = true) (a : BusAddr) (k : Nat)
    (x : DevAccess) (r : Reply) :
    s.forwarded b a k x r = { s with reply := r, calls := s.calls ++ [{ dev := k, access := x }] } :=
  State.forwarded_of_locked hl

/-- Settles O21: through the bus or by a direct call the access is forwarded once, and the lock leaves nothing else of it. -/
theorem lockedHotspotAccessOnlyForwards : Obligations.LockedHotspotAccessOnlyForwards := by
  intro s b a v k hcoh hc hi hl hh ho hr
  constructor
  · intro i hmem
    rw [← State.forwarded_eq_of_locked hl (busAddr a)]
    rcases List.mem_cons.mp hmem with rfl | hform
    · exact hcoh.execRead_forwarded hi hc hh ho hr
    · rw [exec_of_mem_mPeekForms hc hform, deliver_multiPeek_forwarded hi hh ho hr]
  · intro i hmem
    rw [← State.forwarded_eq_of_locked hl (busAddr a)]
    rcases List.mem_cons.mp hmem with rfl | hform
    · exact hcoh.execWrite_forwarded hi hc hh ho hr v
    · rw [exec_of_mem_mPokeForms hc hform, deliver_multiPoke_forwarded hi hh ho hr v]

/-! ### The lock and the flag (R160 to R163) -/

/-- Settles O48: both controls stand behind the Multi variant check, which a Fixed state fails. -/
theorem lockControlsChangeOnlyTheLock : Obligations.LockControlsChangeOnlyTheLock :=
  ⟨fun _ _ hc => ⟨onMulti_multi hc _, onMulti_multi hc _⟩, fun _ hc => ⟨onMulti_fixed hc _, onMulti_fixed hc _⟩⟩

/-- Settles O49: neither operation has a check, so each is its one update. -/
theorem flagIsReadAndCleared : Obligations.FlagIsReadAndCleared := fun _ => ⟨rfl, rfl⟩

end Sys2Proof.Machine

/-! PROOFS. The statements of 60_exceptions.md. A fault is traced back through the shared operations to a captured slot that
names the cartridge, which the invariant excludes; what a reported failure leaves is read off `Changes`. -/

namespace Sys2Proof.Machine

open Sys2Proof.Claims

/-! ### Where a fault can come from (R174, R198) -/

section
variable {s : State} {f : Fault}

theorem onFixed_fault {k : Host.Outcome State Fault Refusal} (h : onFixed s k = .fault f) : k = .fault f := by
  unfold onFixed at h
  split at h
  · exact h
  · cases h

theorem onMulti_fault {k : Banks → Host.Outcome State Fault Refusal} (h : onMulti s k = .fault f) :
    ∃ b, s.cart = .multi b ∧ k b = .fault f := by
  unfold onMulti at h
  split at h
  · cases h
  · exact ⟨_, ‹_›, h⟩

theorem deliver_fault {α : Type} {g : α → Reply} {o : Host.Outcome (α × State) Fault Refusal}
    (h : deliver g o = .fault f) : o = .fault f := by
  cases o with
  | next p => cases h
  | fault e => cases h; rfl
  | refused e => cases h

/-- An external device raises nothing (R174, R183). -/
theorem extPeek_ne_fault {k : Nat} {a : BusAddr} : extPeek k a s ≠ .fault f := by
  unfold extPeek
  split <;> exact nofun

theorem extPoke_ne_fault {k : Nat} {a : BusAddr} {v : Byte} : extPoke k a v s ≠ .fault f := by
  unfold extPoke
  split <;> exact nofun

theorem forwardPeek_fault {d : Desc} {a : BusAddr} (h : forwardPeek d a s = .fault f) : d.owner = .cart := by
  unfold forwardPeek at h
  split at h
  · assumption
  · exact absurd h extPeek_ne_fault

theorem forwardPoke_fault {d : Desc} {a : BusAddr} {v : Byte} (h : forwardPoke d a v s = .fault f) :
    d.owner = .cart := by
  unfold forwardPoke at h
  split at h
  · assumption
  · exact absurd h extPoke_ne_fault

/-- A hotspot access whose forward faults only at the cartridge itself faults only where a captured slot names it (R198). -/
theorem hotspotAccess_fault {α : Type} {a : BusAddr} {b : Banks}
    {forward : Desc → State → Host.Outcome (α × State) Fault Refusal} (hc : s.cart = .multi b)
    (hf : ∀ d t, forward d t = .fault f → d.owner = .cart) (h : hotspotAccess a b s forward = .fault f) :
    s.installed = true ∧ ¬ s.cart.forwardsOutside := by
  unfold hotspotAccess at h
  split at h
  · refine ⟨‹_›, fun hout => ?_⟩
    rw [hc] at hout
    exact hout _ (hf _ _ h)
  · cases h

theorem multiPeek_fault {a : Arg} {b : Banks} (hc : s.cart = .multi b) (h : multiPeek a b s = .fault f) :
    s.installed = true ∧ ¬ s.cart.forwardsOutside := by
  unfold multiPeek at h
  split at h
  · exact hotspotAccess_fault hc (fun _ _ => forwardPeek_fault) h
  · cases h

theorem multiPoke_fault {a : Arg} {v : Byte} {b : Banks} (hc : s.cart = .multi b) (h : multiPoke a v b s = .fault f) :
    s.installed = true ∧ ¬ s.cart.forwardsOutside := by
  unfold multiPoke at h
  split at h
  · exact hotspotAccess_fault hc (fun _ _ => forwardPoke_fault) h
  · cases h

theorem devPeek_fault {o : DeviceId} {a : BusAddr} (h : devPeek o a s = .fault f) :
    s.installed = true ∧ ¬ s.cart.forwardsOutside := by
  cases o with
  | ext k => exact absurd h extPeek_ne_fault
  | cart =>
    cases hc : s.cart with
    | fixed => rw [devPeek_fixed hc] at h; cases h
    | multi b => rw [devPeek_multi hc] at h; exact hc ▸ multiPeek_fault hc h

theorem devPoke_fault {o : DeviceId} {a : BusAddr} {v : Byte} (h : devPoke o a v s = .fault f) :
    s.installed = true ∧ ¬ s.cart.forwardsOutside := by
  cases o with
  | ext k => exact absurd h extPoke_ne_fault
  | cart =>
    cases hc : s.cart with
    | fixed => rw [devPoke_fixed hc] at h; cases h
    | multi b => rw [devPoke_multi hc] at h; exact hc ▸ multiPoke_fault hc h

theorem execRead_fault {a : Arg} (h : execRead a s = .fault f) : s.installed = true ∧ ¬ s.cart.forwardsOutside := by
  unfold execRead at h
  split at h
  · cases h
  · exact devPeek_fault (deliver_fault h)

theorem execWrite_fault {a : Arg} {v : Byte} (h : execWrite a v s = .fault f) :
    s.installed = true ∧ ¬ s.cart.forwardsOutside := by
  unfold execWrite at h
  split at h
  · cases h
  · exact devPoke_fault (deliver_fault h)

/-- The body of M.PEEK's three rows. -/
theorem execMPeek_fault {a : Arg} (h : onMulti s (fun b => deliver .byte (multiPeek a b s)) = .fault f) :
    s.installed = true ∧ ¬ s.cart.forwardsOutside := by
  obtain ⟨b, hc, h⟩ := onMulti_fault h
  exact multiPeek_fault hc (deliver_fault h)

/-- The body of M.POKE's three rows. -/
theorem execMPoke_fault {a : Arg} {v : Byte} (h : onMulti s (fun b => deliver .bool (multiPoke a v b s)) = .fault f) :
    s.installed = true ∧ ¬ s.cart.forwardsOutside := by
  obtain ⟨b, hc, h⟩ := onMulti_fault h
  exact multiPoke_fault hc (deliver_fault h)

/-- An operation that reaches no device never faults: whatever its checks decide, it answers or it is refused. -/
theorem busOperand_of_fault {i : Instr} (h : exec i s = .fault f) : ∃ a, busOperand i = some a := by
  cases i with
  | read a | write a | mPeekHotspot a | mPeekWindow a | mPeekLow a | mPokeHotspot a | mPokeWindow a | mPokeLow a =>
    exact ⟨a, rfl⟩
  | getpage p => simp only [exec, execGetpage] at h; split at h <;> cases h
  | setpage p d => simp only [exec, execSetpage] at h; split at h <;> cases h
  | fConstruct image n => simp only [exec, execFConstruct] at h; split at h <;> cases h
  | mConstruct image => simp only [exec, execMConstruct] at h; split at h <;> cases h
  | bankchanged | clearbankchanged => cases h
  | fReset | fPeek | fPoke | fPatch | fBank | fGetbank | fBankcount | fGetimage | fTag => cases onFixed_fault h
  | fInstall | fSave | fLoad => have h := onFixed_fault h; split at h <;> cases h
  | mPatch | mGetbank | mBankcount | mGetimage | mTag | lockbank | unlockbank =>
    obtain ⟨b, -, h⟩ := onMulti_fault h
    cases h
  | mReset | mBank =>
    obtain ⟨b, -, h⟩ := onMulti_fault h
    split at h <;> cases h
  | mInstall | mSave =>
    obtain ⟨b, -, h⟩ := onMulti_fault h
    split at h
    · cases h
    · split at h <;> cases h
  | mLoad st =>
    obtain ⟨b, -, h⟩ := onMulti_fault h
    split at h
    · split at h
      · cases h
      · split at h
        · split at h <;> cases h
        · cases h
    · cases h

/-- The one fault of the block: an installed cartridge with a captured slot that names the cartridge (R198). -/
theorem exec_fault {i : Instr} (h : exec i s = .fault f) : s.installed = true ∧ ¬ s.cart.forwardsOutside := by
  obtain ⟨a, ha⟩ := busOperand_of_fault h
  cases i with
  | read => exact execRead_fault h
  | write => exact execWrite_fault h
  | mPeekHotspot | mPeekWindow | mPeekLow => exact execMPeek_fault h
  | mPokeHotspot | mPokeWindow | mPokeLow => exact execMPoke_fault h
  | _ => cases ha

/-- A step that faults has run an operation that faults. -/
theorem step_fault (h : step s = .fault f) : ∃ rest i, exec i { s with pending := rest } = .fault f := by
  cases hp : s.pending with
  | nil => rw [step_of_empty hp] at h; cases h
  | cons tx rest =>
    cases hd : decode s.variant tx with
    | instr i => exact ⟨rest, i, step_of_instr hp hd ▸ h⟩
    | rejected r => rw [step_of_rejected hp hd] at h; cases h

end

/-- Settles O11: only a forward to the cartridge itself faults, and the invariant's captured slots all lie outside it. -/
theorem stepNeverFaults : Obligations.StepNeverFaults := by
  intro s f hinv h
  obtain ⟨rest, i, he⟩ := step_fault h
  obtain ⟨hi, hself⟩ := exec_fault he
  exact hself (hinv.forwards hi)

/-! ### What a reported failure leaves (R157, R171, R179) -/

/-- A SAVE or LOAD that answers `false` has only answered, or has converted a stream error. -/
theorem Changes.streamed_false {s t : State} {i : Instr} {st : Stream} (h : Changes s i t)
    (hr : t.reply = .streamed false st) :
    t = s.answer (.streamed false st) ∨ ∃ line, t = streamFailed line st s := by
  cases h with
  | answered _ r =>
    obtain rfl : r = .streamed false st := hr
    exact .inl rfl
  | streamError _ line st' hi =>
    obtain rfl : st' = st := by simpa using hr
    exact .inr ⟨line, rfl⟩
  | access _ a u r hi hu hne => exact absurd hr (hne false st)
  | select _ b n r hi =>
    obtain rfl : r = .streamed false st := hr
    obtain ⟨-, hr⟩ | ⟨m, -, -, hr⟩ | ⟨st, st', -, hr⟩ := hi <;> cases hr
  | _ => simp at hr

/-- An M.BANK that answers `false` has only answered: a select answers `true` (R138). -/
theorem Changes.mBank_false {s t : State} {n : Arg} (h : Changes s (.mBank n) t) (hr : t.reply = .bool false) :
    t = s.answer (.bool false) := by
  cases h with
  | answered _ r =>
    obtain rfl : r = .bool false := hr
    rfl
  | access _ a u r hi => cases hi
  | streamError _ line st hi => cases hi
  | select _ b m r hi =>
    obtain rfl : r = .bool false := hr
    obtain ⟨-, hr⟩ | ⟨m, -, -, hr⟩ | ⟨st, st', -, hr⟩ := hi <;> cases hr

/-- Settles O47: the failures are plain answers and stream errors, and only a stream error leaves a line. -/
theorem reportedFailuresChangeNothing : Obligations.ReportedFailuresChangeNothing := by
  intro s t i h
  constructor
  · intro st hr
    obtain rfl | ⟨line, rfl⟩ := (exec_changes h).streamed_false hr
    · exact ⟨rfl, .inl rfl⟩
    · cases line with
      | save => exact ⟨rfl, .inr (.inl rfl)⟩
      | load => exact ⟨rfl, .inr (.inr rfl)⟩
  · rintro n rfl hr
    exact (exec_changes h).mBank_false hr

/-! ### A device that re-enters the block during a forward (R183, R203) -/

section
variable {s : State} {b : Banks} {a : Arg} {k : Nat}

theorem multiPeek_reentered (hi : s.installed = true) (hh : inHotspot (busAddr a) = true)
    (ho : (b.slot (slotOf (busAddr a))).owner = .ext k) (hr : s.calls.length ∈ s.reentries) :
    multiPeek a b s = .refused .deviceReentered := by
  have hre := (tryBank_reenteredNext (hotBank b.bankCount (busAddr a)) b s).trans (reenteredNext_of_mem hr)
  simp [multiPeek, hh, hotspotAccess, hi, forwardPeek, ho, extPeek_of_reentered hre]

theorem multiPoke_reentered (hi : s.installed = true) (hh : inHotspot (busAddr a) = true)
    (ho : (b.slot (slotOf (busAddr a))).owner = .ext k) (hr : s.calls.length ∈ s.reentries) (v : Byte) :
    multiPoke a v b s = .refused .deviceReentered := by
  have hre := (tryBank_reenteredNext (hotBank b.bankCount (busAddr a)) b s).trans (reenteredNext_of_mem hr)
  simp [multiPoke, hh, hotspotAccess, hi, forwardPoke, ho, extPoke_of_reentered hre]

end

/-- Settles O24: the switch attempt makes no call, so the forward is the re-entered one; through a page the cartridge owns a
READ or WRITE is that same peek or poke. -/
theorem reentrantForwardIsRefused : Obligations.ReentrantForwardIsRefused := by
  intro s b a v k hc hi hh ho hr
  have hpeek : ∀ i ∈ mPeekForms a, exec i s = .refused .deviceReentered := fun i hmem => by
    rw [exec_of_mem_mPeekForms hc hmem, multiPeek_reentered hi hh ho hr, deliver_of_refused]
  have hpoke : ∀ i ∈ mPokeForms a v, exec i s = .refused .deviceReentered := fun i hmem => by
    rw [exec_of_mem_mPokeForms hc hmem, multiPoke_reentered hi hh ho hr, deliver_of_refused]
  refine ⟨hpeek, hpoke, fun d hentry hown => ?_⟩
  obtain ⟨-, hmulti⟩ := cartridgePageAccessIsItsPeekAndPoke s a v d hentry hown
  obtain ⟨hread, hwrite, -, -⟩ := hmulti b hc
  have hfirstPeek : Instr.mPeekHotspot a ∈ mPeekForms a := List.mem_cons_self
  have hfirstPoke : Instr.mPokeHotspot a v ∈ mPokeForms a v := List.mem_cons_self
  exact ⟨(hread _ hfirstPeek).trans (hpeek _ hfirstPeek), (hwrite _ hfirstPoke).trans (hpoke _ hfirstPoke)⟩

end Sys2Proof.Machine

/-! PROOFS. The statements of 70_reset_and_hazards.md. The boot sequence (R193) is a CONSTRUCT, the device's SETPAGEs, an INSTALL
and a RESET; each stage is the statement about that operation, in the state whose queue holds the stages after it. -/

namespace Sys2Proof.Machine

open Sys2Proof.Claims

/-! ### Running issued operations -/

/-- The canonical transaction at the head of the queue runs its operation in the state without it. -/
theorem step_of_encoded {s : State} {v : Variant} {i : Instr} {rest : List Transaction} (hp : s.pending = encode i :: rest)
    (hv : s.variant = v) (hw : i.wf = true) (he : i.existsIn v = true) : step s = exec i { s with pending := rest } :=
  step_of_instr hp (hv ▸ decode_encode hw he)

/-- Issued with nothing waiting, the first of the operations runs while the others wait. -/
theorem step_issue_cons {s : State} {i : Instr} (hp : s.pending = []) (hw : i.wf = true) (he : i.existsIn s.variant = true)
    (ops : List Instr) : step (issue (i :: ops) s) = exec i { s with pending := ops.map encode } :=
  step_of_encoded (congrArg (· ++ (i :: ops).map encode) hp) rfl hw he

theorem runSteps_succ_of_next {s t : State} (h : step s = .next t) (n : Nat) : runSteps (n + 1) s = runSteps n t := by
  rw [runSteps, h]

theorem runSteps_add_of_next {m : Nat} {s t : State} (h : runSteps m s = .next t) (n : Nat) :
    runSteps (m + n) s = runSteps n t := by
  induction m generalizing s with
  | zero =>
    obtain rfl := next_inj h
    rw [Nat.zero_add]
  | succ m ih =>
    rw [runSteps] at h
    split at h
    next u hu => rw [Nat.add_right_comm, runSteps_succ_of_next hu, ih h]
    all_goals cases h

/-! ### INSTALLDEV (R97) -/

/-- One operation of INSTALLDEV: page `p` becomes the device's. -/
def setpageExt (k p : Nat) : Instr := .setpage (BitVec.ofNat 16 p) (extDesc k)

theorem installDev_eq_map (k lo hi : Nat) : installDev k lo hi = (List.range' lo (hi + 1 - lo)).map (setpageExt k) := rfl

theorem exec_setpageExt {p : Nat} (h : p ≤ 127) (k : Nat) (s : State) : exec (setpageExt k p) s =
    .next ({ s with pt := PageTable.set s.pt (BitVec.ofNat 7 p) (extDesc k) }.answer .none) := by
  have hsmall : (BitVec.ofNat 16 p).toNat ≤ 127 := by rw [BitVec.toNat_ofNat]; omega
  have hpage : (BitVec.ofNat 16 p).setWidth 7 = BitVec.ofNat 7 p := BitVec.setWidth_ofNat_of_le (by decide) p
  exact (execSetpage_of_le hsmall _ s).trans (by rw [hpage])

/-- A device's SETPAGE at the head of the queue changes the entry of its page, and nothing else but the reply. -/
theorem step_setpageExt {k p : Nat} (hple : p ≤ 127) {s : State} {rest : List Transaction}
    (hp : s.pending = encode (setpageExt k p) :: rest) :
    ∃ t, step s = .next t ∧ t = { s with pt := t.pt, reply := t.reply, pending := rest } ∧
      ∀ q, PageTable.get t.pt q = if q.toNat = p then .mapped (extDesc k) else PageTable.get s.pt q := by
  refine ⟨_, (step_of_encoded hp rfl rfl rfl).trans (exec_setpageExt hple k _), rfl, fun q => ?_⟩
  have hpage : q = BitVec.ofNat 7 p ↔ q.toNat = p := by rw [← BitVec.toNat_inj, BitVec.toNat_ofNat]; omega
  rw [State.answer_pt, PageTable.get_set]
  simp only [hpage]

/-- A device's SETPAGEs at the head of the queue all complete. -/
theorem runSteps_setpageExt {k : Nat} {pages : List Nat} (hle : ∀ p ∈ pages, p ≤ 127) {s : State}
    {rest : List Transaction} (hp : s.pending = (pages.map (setpageExt k)).map encode ++ rest) :
    ∃ t, runSteps pages.length s = .next t ∧ t = { s with pt := t.pt, reply := t.reply, pending := rest } ∧
      ∀ q, PageTable.get t.pt q = if q.toNat ∈ pages then .mapped (extDesc k) else PageTable.get s.pt q := by
  induction pages generalizing s with
  | nil =>
    obtain rfl : s.pending = rest := hp
    exact ⟨s, rfl, rfl, fun _ => rfl⟩
  | cons p pages ih =>
    obtain ⟨hple, hle⟩ := List.forall_mem_cons.1 hle
    obtain ⟨u, hstep, hframe, hpage⟩ := step_setpageExt hple hp
    obtain ⟨t, hrun, hframe', hpages⟩ := ih hle (congrArg State.pending hframe)
    refine ⟨t, (runSteps_succ_of_next hstep _).trans hrun, by rw [hframe', hframe], fun q => ?_⟩
    rw [hpages, hpage, ← ite_or]
    simp only [List.mem_cons, or_comm]

/-- INSTALLDEV of pages 0 .. 63 at the head of the queue. -/
theorem runSteps_installDev {k : Nat} {s : State} {rest : List Transaction}
    (hp : s.pending = (installDev k 0 63).map encode ++ rest) :
    ∃ t, runSteps 64 s = .next t ∧ t = { s with pt := t.pt, reply := t.reply, pending := rest } ∧
      ∀ q, PageTable.get t.pt q = if 64 ≤ q.toNat then PageTable.get s.pt q else .mapped (extDesc k) := by
  have hmem (p : Nat) : p ∈ List.range' 0 64 ↔ p < 64 := by rw [List.mem_range'_1]; omega
  obtain ⟨t, hrun, hframe, hpages⟩ :=
    runSteps_setpageExt (fun p h => by have := (hmem p).1 h; omega) (hp.trans (by rw [installDev_eq_map]))
  exact ⟨t, hrun, hframe, fun q => by rw [hpages]; simp only [hmem, ← Nat.not_le, ite_not]⟩

/-! ### The boot sequence (R193, R195) -/

/-- What is left of the boot sequence when its CONSTRUCT has been taken from the queue. -/
def afterConstruct (k : Nat) (install reset : Instr) : List Transaction :=
  (installDev k 0 63).map encode ++ [encode install, encode reset]

/-- The boot sequence runs its CONSTRUCT in the reset state, the rest of the sequence waiting, and goes on from there. -/
theorem runSteps_bootSequence {k : Nat} {construct install reset : Instr} {s : State} (hw : construct.wf = true)
    (he : construct.existsIn .multi = true)
    (h : exec construct { State.reset with pending := afterConstruct k install reset } = .next s) :
    runSteps (construct :: (installDev k 0 63 ++ [install, reset])).length
      (issue (construct :: (installDev k 0 63 ++ [install, reset])) State.reset) = runSteps 66 s := by
  have hqueue : (installDev k 0 63 ++ [install, reset]).map encode = afterConstruct k install reset := List.map_append
  have hstep := step_issue_cons (s := State.reset) rfl hw he (installDev k 0 63 ++ [install, reset])
  rw [hqueue] at hstep
  have hlen : (construct :: (installDev k 0 63 ++ [install, reset])).length = 66 + 1 := by simp [installDev]
  rw [hlen, runSteps_succ_of_next (hstep.trans h)]

theorem runSteps_afterConstruct {s s₁ s₂ s₃ : State} (hdevice : runSteps 64 s = .next s₁)
    (hinstall : step s₁ = .next s₂) (hreset : step s₂ = .next s₃) : runSteps 66 s = .next s₃ := by
  rw [runSteps_add_of_next hdevice 2, runSteps_succ_of_next hinstall, runSteps_succ_of_next hreset, runSteps]

/-- A Multi cartridge not yet installed boots: the device's pages are what M.INSTALL needs, it captures the hotspot pages among
them, and M.RESET selects the startup bank once more. -/
theorem runSteps_afterConstruct_multi {k : Nat} {s : State} {b : Banks} (hc : s.cart = .multi b) (hi : s.installed = false)
    (hp : s.pending = afterConstruct k .mInstall .mReset) :
    ∃ t c, runSteps 66 s = .next t ∧ t.cart = .multi c ∧ c.bankCount = b.bankCount ∧ c.bank = b.bankCount - 1 ∧
      c.bankLocked = b.bankLocked ∧ (∀ h, c.slot h = extDesc k) ∧
      t = { s with cart := t.cart, pt := t.pt, bankChanged := true, installed := true, reply := .none, pending := [] } ∧
      ∀ p : PageIdx, PageTable.get t.pt p = if 64 ≤ p.toNat then .mapped (windowDesc c.bank p)
        else if 32 ≤ p.toNat then .mapped hotDesc else .mapped (extDesc k) := by
  obtain ⟨s₁, hrun₁, hframe₁, hpages₁⟩ := runSteps_installDev hp
  have hc₁ : s₁.cart = .multi b := (congrArg State.cart hframe₁).trans hc
  have hhot (h : Slot) : PageTable.get s₁.pt (hotspotPage h) = .mapped (extDesc k) ∧ (extDesc k).owner ≠ .cart :=
    ⟨by rw [hpages₁, hotspotPage_toNat, if_neg (by omega)], DeviceId.noConfusion⟩
  obtain ⟨-, hinstall, -⟩ := multiInstallCapturesAndTakesOver { s₁ with pending := [encode .mReset] } b hc₁
  obtain ⟨s₂, c, hexec₂, hc₂, hslots, -, hcount, hlock, -, hpages₂, hframe₂⟩ :=
    hinstall ((congrArg State.installed hframe₁).trans hi) _ hhot
  obtain ⟨-, hreset⟩ := multiResetRestoresTheStartupBank { s₂ with pending := [] } c hc₂
  obtain ⟨s₃, hexec₃, ⟨hc₃, -, hpages₃⟩, hframe₃⟩ := hreset (congrArg State.installed hframe₂)
  have hstep₁ : step s₁ = .next s₂ :=
    (step_of_encoded (congrArg State.pending hframe₁) (State.variant_of_multi hc₁) rfl rfl).trans hexec₂
  have hstep₂ : step s₂ = .next s₃ :=
    (step_of_encoded (congrArg State.pending hframe₂) (State.variant_of_multi hc₂) rfl rfl).trans hexec₃
  refine ⟨s₃, _, runSteps_afterConstruct hrun₁ hstep₁ hstep₂, hc₃, hcount, congrArg (· - 1) hcount, hlock, hslots,
    by rw [hframe₃, hframe₂, hframe₁], fun p => ?_⟩
  rw [hpages₃]
  split
  next => rfl
  next hlow =>
    rw [hpages₂, if_neg hlow, hpages₁, if_neg hlow]
    rfl

/-- A Fixed cartridge not yet installed boots: F.INSTALL publishes its window beside the device's pages, and F.RESET raises the
flag. -/
theorem runSteps_afterConstruct_fixed {k : Nat} {s : State} (hc : s.cart = .fixed) (hi : s.installed = false)
    (hp : s.pending = afterConstruct k .fInstall .fReset) :
    ∃ t, runSteps 66 s = .next t ∧
      t = { s with pt := t.pt, bankChanged := true, installed := true, reply := .none, pending := [] } ∧
      ∀ p : PageIdx, PageTable.get t.pt p =
        if 64 ≤ p.toNat then .mapped (fixedWinDesc s.store.size p) else .mapped (extDesc k) := by
  obtain ⟨s₁, hrun₁, hframe₁, hpages₁⟩ := runSteps_installDev hp
  have hc₁ : s₁.cart = .fixed := (congrArg State.cart hframe₁).trans hc
  obtain ⟨-, hinstall⟩ := fixedInstallPublishesTheWindow { s₁ with pending := [encode .fReset] } hc₁
  obtain ⟨s₂, hexec₂, hpages₂, hframe₂⟩ := hinstall ((congrArg State.installed hframe₁).trans hi)
  have hc₂ : s₂.cart = .fixed := (congrArg State.cart hframe₂).trans hc₁
  have hexec₃ := fixedResetOnlySetsTheFlag { s₂ with pending := [] } hc₂
  have hstep₁ : step s₁ = .next s₂ :=
    (step_of_encoded (congrArg State.pending hframe₁) (State.variant_of_fixed hc₁) rfl rfl).trans hexec₂
  have hstep₂ := (step_of_encoded (congrArg State.pending hframe₂) (State.variant_of_fixed hc₂) rfl rfl).trans hexec₃
  refine ⟨_, runSteps_afterConstruct hrun₁ hstep₁ hstep₂, by rw [hframe₂, hframe₁], fun p => ?_⟩
  have hstore : s₁.store = s.store := by rw [hframe₁]
  refine (hpages₂ p).trans ?_
  rw [hstore]
  split
  next => rfl
  next hlow => exact (hpages₁ p).trans (if_neg hlow)

/-- Settles O55: what M.CONSTRUCT leaves in the reset state boots. -/
theorem multiPowerOnReachesTheBootState : Obligations.MultiPowerOnReachesTheBootState := by
  intro k image hne hmul hmax
  obtain ⟨-, hconstruct⟩ :=
    multiConstructHoldsTheImage { State.reset with pending := afterConstruct k .mInstall .mReset } image
  obtain ⟨s, b, hexec, hc, hcount, -, hlock, hsize, hbytes, -, -, hi, -, hcalls, hp, -, hfirst⟩ := hconstruct hne hmul hmax
  obtain ⟨-, hdiag⟩ := hfirst rfl rfl
  obtain ⟨t, c, hrun, ht, hcount', hbank, hlock', hslots, hframe, hpages⟩ := runSteps_afterConstruct_multi hc hi hp
  have hstore : t.store = s.store := by rw [hframe]
  exact ⟨t, c, (runSteps_bootSequence rfl rfl hexec).trans hrun, ht, hcount'.trans hcount, hcount' ▸ hbank,
    hlock'.trans hlock, hslots, congrArg State.bankChanged hframe, congrArg State.installed hframe,
    congrArg State.pending hframe, (congrArg State.diag hframe).trans hdiag, (congrArg State.calls hframe).trans hcalls,
    hstore ▸ hsize, hstore ▸ hbytes, hpages⟩

/-- Settles O56: what F.CONSTRUCT leaves in the reset state boots, its store as it was built. -/
theorem fixedPowerOnReachesTheBootState : Obligations.FixedPowerOnReachesTheBootState := by
  intro k n image hlen
  obtain ⟨-, hconstruct⟩ :=
    fixedConstructBuildsTheStore { State.reset with pending := afterConstruct k .fInstall .fReset } image n
  obtain ⟨s, hexec, hsize, hbytes, hfill, hc, htag, -, hi, -, hcalls, hp, -, hfirst⟩ := hconstruct hlen
  obtain ⟨-, hdiag⟩ := hfirst rfl rfl
  obtain ⟨t, hrun, hframe, hpages⟩ := runSteps_afterConstruct_fixed hc hi hp
  have hstore : t.store = s.store := by rw [hframe]
  exact ⟨t, (runSteps_bootSequence rfl rfl hexec).trans hrun, (congrArg State.cart hframe).trans hc,
    (congrArg State.tag hframe).trans htag, congrArg State.bankChanged hframe, congrArg State.installed hframe,
    congrArg State.pending hframe, (congrArg State.diag hframe).trans hdiag, (congrArg State.calls hframe).trans hcalls,
    hstore ▸ hsize, hstore ▸ hbytes, hstore ▸ hfill, hstore ▸ hpages⟩

/-! ### A captured slot that names the cartridge (R198) -/

section
variable {s : State} {b : Banks} {a : Arg}

theorem multiPeek_selfForward (hi : s.installed = true) (hh : inHotspot (busAddr a) = true)
    (ho : (b.slot (slotOf (busAddr a))).owner = .cart) : multiPeek a b s = .fault .endlessForward := by
  simp [multiPeek, hh, hotspotAccess, hi, forwardPeek, ho]

theorem multiPoke_selfForward (hi : s.installed = true) (hh : inHotspot (busAddr a) = true)
    (ho : (b.slot (slotOf (busAddr a))).owner = .cart) (v : Byte) : multiPoke a v b s = .fault .endlessForward := by
  simp [multiPoke, hh, hotspotAccess, hi, forwardPoke, ho]

end

/-- Settles O25: each row of M.PEEK and M.POKE is the one rule, whose forward finds the cartridge. -/
theorem selfForwardIsEndless : Obligations.SelfForwardIsEndless := by
  refine fun s b a v hc hi hh ho => ⟨fun i hmem => ?_, fun i hmem => ?_⟩
  · rw [exec_of_mem_mPeekForms hc hmem, multiPeek_selfForward hi hh ho, deliver_of_fault]
  · rw [exec_of_mem_mPokeForms hc hmem, multiPoke_selfForward hi hh ho, deliver_of_fault]

/-! ### A replaced cartridge (R200) -/

theorem execMConstruct_of_bad {image : List Byte} (h : goodMultiImageSize image.length = false) (s : State) :
    execMConstruct image s = .refused .badImage := if_neg (by simp [h])

theorem execMConstruct_of_good {image : List Byte} (h : goodMultiImageSize image.length = true) (s : State) :
    execMConstruct image s = .next (constructed
      (.multi { bankCount := image.length / Config.bankSize, bank := image.length / Config.bankSize - 1,
                bankLocked := false, captured := freshCaptured s })
      Config.tagMulti (Store.ofBytes image.length image) s) := if_pos h

/-- A CONSTRUCT that completes has built a cartridge. -/
theorem eq_constructed_of_isConstruct {s t : State} {i : Instr} (hi : isConstruct i = true) (h : exec i s = .next t) :
    ∃ cart tag store, t = constructed cart tag store s := by
  cases i with
  | fConstruct image n =>
    rcases lt_or_ge image.length (fixedCopied n) with hlen | hlen
    · cases (execFConstruct_of_short hlen s).symm.trans h
    · exact ⟨_, _, _, (next_inj ((execFConstruct_of_le hlen s).symm.trans h)).symm⟩
  | mConstruct image =>
    cases hgood : goodMultiImageSize image.length with
    | false => cases (execMConstruct_of_bad hgood s).symm.trans h
    | true => exact ⟨_, _, _, (next_inj ((execMConstruct_of_good hgood s).symm.trans h)).symm⟩
  | _ => cases hi

/-- Settles O33: whatever cartridge it builds, a later CONSTRUCT leaves table and diagnostics as at power-on. -/
theorem replacingTheCartridgeIsANewPowerOn : Obligations.ReplacingTheCartridgeIsANewPowerOn := by
  intro s t i hi hagain h
  obtain ⟨cart, tag, store, rfl⟩ := eq_constructed_of_isConstruct hi h
  obtain ⟨hpt, hdiag⟩ := constructed_again hagain cart tag store
  exact ⟨fun p => by rw [hpt, PageTable.get_empty], hdiag⟩

end Sys2Proof.Machine

/-! PROOFS. The state before the boot sequence (10_state.md section 7): the one-bank cartridge of log entry 3 meets the
geometry of R28 and R29, and nothing is installed yet, which is the premise of R36, R37 and R145. -/

namespace Sys2Proof.Machine

/-- The power-on cartridge: one bank of 4096 bytes, selected (R11, R28, R29). -/
theorem reset_shapeOk : State.reset.cart.shapeOk State.reset.store.size := by
  have hmax : 1 ≤ Config.maxBanks := by decide
  have hsize : 4096 = 1 * Config.bankSize := rfl
  exact ⟨le_rfl, hmax, hsize, Nat.one_pos⟩

theorem reset_not_installed : State.reset.installed = false := rfl

theorem reset_inv : State.reset.Inv where
  canonical := State.reset_store_wf
  bounded := fun _ hc => absurd hc List.not_mem_nil
  shape := reset_shapeOk
  tag := rfl
  forwards := fun hi => absurd hi (by simp [reset_not_installed])

/-- Settles O9: an empty store in the power-on geometry, and no table to be coherent before INSTALL. -/
theorem resetMeetsInvariant : Obligations.ResetMeetsInvariant :=
  ⟨reset_inv, State.coherent_of_not_installed reset_not_installed⟩

end Sys2Proof.Machine
